-- ==== Sys2Proof/Word.lean ====
section
/-! DEFINITION. The word types of the CORE Machine and nothing else (00_scope.md R12, R13: every stored value is an
unsigned integer; no rule interprets a value as signed). -/

namespace Sys2Proof

/-- A byte: a register's content or a byte of memory (00_scope.md R5, R7, R13). -/
abbrev Byte := BitVec 8

/-- A 16-bit word: an instruction word, the program counter or a call-stack slot (00_scope.md R9, R10). -/
abbrev Word := BitVec 16

/-- The 12-bit immediate `w.nnn` (00_scope.md R11). -/
abbrev Imm12 := BitVec 12

/-- A 4-bit field of an instruction word (30_encoding.md R71). -/
abbrev Nibble := BitVec 4

end Sys2Proof
end

