-- ==== Sys2Proof/Config.lean ====
section
/-! DEFINITION. The implementation parameters of 00_scope.md section 4 at the values this hardware takes. `INSTR_WIDTH`, `INSTR_BYTES`,
`PC_WIDTH` and `IMM_WIDTH` (R9 to R11) are the widths of the types of Word.lean and the 2 of the advance of `pc`. The spec leaves
no value open that a step could produce, so there is no free value here. -/

namespace Sys2Proof.Config

/-- `NUM_REGS` (00_scope.md R5). -/
abbrev numRegs : Nat := 16

/-- `FLAG_REG`: register 15 is the flags register (00_scope.md R6). -/
abbrev flagReg : Fin numRegs := 15

/-- `MEM_SIZE`: bytes of memory; valid byte addresses are 0 to `MEM_SIZE` - 1 (00_scope.md R7). -/
abbrev memSize : Nat := 4096

/-- `STACK_CAPACITY`: call-stack slots (00_scope.md R8). -/
abbrev stackCapacity : Nat := 16

end Sys2Proof.Config
end

