-- ==== Sys2Proof/Syntax.lean ====
section
/-! DEFINITION. The four instructions of the CORE ISA (30_encoding.md R76: the instruction list is closed). -/

namespace Sys2Proof

/-- A register index: the 4-bit fields `w.x` and `w.y`, always 0 to 15 (10_state.md R22, 30_encoding.md R74). -/
abbrev RegIdx := Fin Config.numRegs

/-- One constructor per row of spec/opcode_table.json. The operand types hold exactly the values the encoding admits, so
every `Instr` is an instruction of the ISA. The outcome of any other word (Unimplemented) is no instruction
(43_halt_and_unimplemented.md R132); `decodeWord` names it. -/
inductive Instr where
  /-- `HALT` (R130). -/
  | halt
  /-- `RET` (R112). -/
  | ret
  /-- `CALL nnn`, an absolute 12-bit address (R110). -/
  | call (nnn : Imm12)
  /-- `ADD rX, rY`: `x` is first source and destination, `y` the second source (R120). -/
  | add (x y : RegIdx)
  deriving DecidableEq, Repr

end Sys2Proof
end

