-- ==== Sys2Proof/Machine/State.lean ====
section
/-! DEFINITION. The state of the Machine: the seven items of 10_state.md R20 and nothing else, as plain data, with their
reset values, and the reasons for which a step or a host command stops. -/

namespace Sys2Proof.Machine

/-- The content of `mem[0..4095]`: the bytes that differ from `unlistedByte`, by rising address. -/
abbrev Memory := List Host.Cell

/-- What an address that is not listed reads as: the reset content of memory (10_state.md R41). -/
def unlistedByte : Byte := 0

/-- The canonical form of memory: addresses strictly rising and below `MEM_SIZE`, no listed byte equal to
`unlistedByte`; equal memories are then equal lists. -/
abbrev Memory.wf (m : Memory) : Prop :=
  m.Pairwise (fun c d => c.1 < d.1) ∧ ∀ c ∈ m, c.1 < Config.memSize ∧ c.2 ≠ unlistedByte

/-- The run status (10_state.md R37). The condition and info of `Failed` are the `fault` item of `State`. -/
inductive RunStatus where
  | idle
  | running
  | halted
  | failed
  deriving DecidableEq, Repr

/-- The four fatal conditions (60_exceptions.md R140, R141). -/
inductive Condition where
  | unimplementedOpcode
  | stackOverflow
  | stackUnderflow
  | outOfBoundsFetch
  deriving DecidableEq, Repr

/-- The fault record (10_state.md R39): `addr` is the address of the faulting instruction, `word` the word fetched in that
step, absent for an out-of-bounds fetch. -/
structure FaultRecord where
  condition : Condition
  addr : Word
  word : Option Word
  deriving DecidableEq, Repr

/-- The state of the Machine (10_state.md R20). `sp` cannot express the values the spec says never occur (R32). -/
structure State where
  regs : Vector Byte Config.numRegs
  mem : Memory
  pc : Word
  stack : Vector Word Config.stackCapacity
  sp : Fin (Config.stackCapacity + 1)
  status : RunStatus
  fault : Option FaultRecord
  deriving DecidableEq, Repr

/-- The state right after reset (10_state.md R41, 70_reset_and_hazards.md R170). -/
def State.reset : State where
  regs := Vector.replicate Config.numRegs 0
  mem := []
  pc := 0
  stack := Vector.replicate Config.stackCapacity 0
  sp := 0
  status := .idle
  fault := none

/-- Why `step` stops: only in a state in which the spec says the Machine takes no step (40_step_cycle.md R90, 10_state.md
R38). The fatal conditions of an instruction are not here: raising one gives a next state. Log entry 1. -/
inductive Fault where
  /-- Raised by `step` in `Idle`: the Machine waits for the host's Run command (R37, R176). Safe: it stops. -/
  | notStarted
  /-- Raised by `step` in `Halted`, which is terminal until reset (R38). Safe: it stops. -/
  | alreadyHalted
  /-- Raised by `step` in `Failed`, which is terminal until reset (R38). Safe: it stops. -/
  | alreadyFailed
  deriving DecidableEq, Repr

/-- Why the model gives an instruction or a host command no meaning. The last four are raised by host commands only, never
by an instruction. Log entry 3. -/
inductive Refusal where
  /-- Raised by `exec` for an instruction without a meaning yet; no instruction of this model is. Safe. -/
  | notModelled (mnemonic : String)
  /-- Raised by the host's reset while `Running`, which no source describes (70_reset_and_hazards.md R171, R178). Safe. -/
  | resetWhileRunning
  /-- Raised by a loader write outside `Idle` (70_reset_and_hazards.md R174). Safe. -/
  | loaderWriteOutsideIdle
  /-- Raised by Run outside `Idle`, which has no defined effect (70_reset_and_hazards.md R176). Safe. -/
  | runOutsideIdle
  /-- Raised by inspection while `Running` (70_reset_and_hazards.md R177, R178). Safe. -/
  | inspectionWhileRunning
  deriving DecidableEq, Repr

/-- What one instruction, one step or one host command gives. -/
abbrev Result := Host.Outcome State Fault Refusal

end Sys2Proof.Machine
end

