-- ==== Sys2Proof/Machine/Flags.lean ====
section
/-! DEFINITION. The ALU: the one arithmetic operation of the ISA and the one flag it computes (42_arithmetic.md R120, R122;
70_reset_and_hazards.md R185). -/

namespace Sys2Proof.Machine

/-- The mathematical sum of two bytes, 0 to 510 (42_arithmetic.md R120); there is no carry input (R122). -/
def aluSum (a b : Byte) : Nat := a.toNat + b.toNat

/-- The stored result: the sum modulo 256 (42_arithmetic.md R120). -/
def aluResult (sum : Nat) : Byte := BitVec.ofNat 8 sum

/-- The carry/overflow indicator as the 8-bit value the flags register takes: 1 exactly when the sum exceeds 255
(42_arithmetic.md R120, R123). -/
def carryFlag (sum : Nat) : Byte := if sum > 255 then 1 else 0

end Sys2Proof.Machine
end

