-- ==== Sys2Proof/WellFormed.lean ====
section
/-! DEFINITION. Which written terms stand for an instruction. `Instr` admits no ill-formed term, its operand types being
exact; what can be ill-formed is a line of the spec's listing notation, whose operands are numbers (30_encoding.md R81). -/

namespace Sys2Proof

/-- One line of the listing notation of 30_encoding.md R81, with its numbers as written. -/
inductive AsmLine where
  | halt
  | ret
  /-- `CALL nnn` with `nnn` a number. -/
  | call (nnn : Nat)
  /-- `ADD rX, rY` with decimal `X` and `Y`, destination first. -/
  | add (x y : Nat)
  /-- `.word 0xHHHH`: a 16-bit value placed as data. -/
  | word (v : Nat)
  deriving DecidableEq, Repr

/-- The ranges 30_encoding.md R81 gives: `nnn` 0 to 4095, `X` and `Y` 0 to 15, a 16-bit `.word`. -/
def AsmLine.wellFormed : AsmLine → Bool
  | .halt => true
  | .ret => true
  | .call nnn => decide (nnn < 4096)
  | .add x y => decide (x < Config.numRegs) && decide (y < Config.numRegs)
  | .word v => decide (v < 65536)

/-- The instruction a well-formed line stands for; none for a `.word` directive, which is data, and for an ill-formed line. -/
def AsmLine.toInstr? : AsmLine → Option Instr
  | .halt => some .halt
  | .ret => some .ret
  | .call nnn => if nnn < 4096 then some (.call (BitVec.ofNat 12 nnn)) else none
  | .add x y =>
    if hx : x < Config.numRegs then
      if hy : y < Config.numRegs then some (.add ⟨x, hx⟩ ⟨y, hy⟩) else none
    else none
  | .word _ => none

end Sys2Proof
end

