-- ==== Sys2Proof/Decode.lean ====
section
/-! DEFINITION. Decoding, total on words and on bytes, and the encoder, both written from the field layout and the opcode
map of 30_encoding.md. -/

namespace Sys2Proof

/-! ### Fields (30_encoding.md R71) -/

/-- `w.c` = `w[15:12]`. -/
def fieldC (w : Word) : Nibble := w.extractLsb' 12 4

/-- `w.x` = `w[11:8]`. -/
def fieldX (w : Word) : Nibble := w.extractLsb' 8 4

/-- `w.y` = `w[7:4]`. -/
def fieldY (w : Word) : Nibble := w.extractLsb' 4 4

/-- `w.d` = `w[3:0]`. -/
def fieldD (w : Word) : Nibble := w.extractLsb' 0 4

/-- `w.nnn` = `w[11:0]`, bits in place (30_encoding.md R73). -/
def fieldNnn (w : Word) : Imm12 := w.extractLsb' 0 12

/-- A 4-bit field used directly as a register index (30_encoding.md R74). -/
def regOfField (f : Nibble) : RegIdx := f.toFin

/-- A register index as the 4-bit field that holds it. -/
def fieldOfReg (i : RegIdx) : Nibble := BitVec.ofFin i

/-! ### Decoding (30_encoding.md R75) -/

/-- The five outcomes of decode: one of the four instructions, or Unimplemented with the whole word. -/
inductive Decoded where
  | instr (i : Instr)
  | unimplemented (w : Word)
  deriving DecidableEq, Repr

/-- `decode(w)`: the precedence list of 30_encoding.md R75, first match wins. It reads nothing but `w` (R80, R94). -/
def decodeWord (w : Word) : Decoded :=
  if fieldC w = 0 ∧ fieldX w = 0 ∧ fieldY w = 0 ∧ fieldD w = 0 then .instr .halt
  else if fieldC w = 0 ∧ fieldX w = 0 ∧ fieldY w = 0xE ∧ fieldD w = 0xE then .instr .ret
  else if fieldC w = 2 then .instr (.call (fieldNnn w))
  else if fieldC w = 8 ∧ fieldD w = 4 then .instr (.add (regOfField (fieldX w)) (regOfField (fieldY w)))
  else .unimplemented w

/-- Two bytes as one instruction word, most-significant byte first (20_memory.md R52). -/
def wordOfBytes (hi lo : Byte) : Word := hi ++ lo

/-- The byte of a word that stands at the lower address: bits 15 to 8 (20_memory.md R52). -/
def highByte (w : Word) : Byte := w.extractLsb' 8 8

/-- The byte of a word that stands at the higher address: bits 7 to 0. -/
def lowByte (w : Word) : Byte := w.extractLsb' 0 8

/-- Why a sequence of bytes is no instruction. -/
inductive DecodeReject where
  /-- The first word is outside the four instructions (30_encoding.md R78). -/
  | unimplementedOpcode (w : Word)
  /-- Fewer than the two bytes every instruction has (30_encoding.md R70). -/
  | tooFewBytes
  deriving DecidableEq, Repr

/-- What decoding a sequence of bytes gives: the first instruction and the bytes after it, or a rejection by name. -/
inductive DecodedBytes where
  | ok (i : Instr) (rest : List Byte)
  | rejected (r : DecodeReject)
  deriving DecidableEq, Repr

/-- Decode the instruction at the head of `bytes`, laid out as memory holds it. -/
def decode (bytes : List Byte) : DecodedBytes :=
  match bytes with
  | hi :: lo :: rest =>
    match decodeWord (wordOfBytes hi lo) with
    | .instr i => .ok i rest
    | .unimplemented w => .rejected (.unimplementedOpcode w)
  | _ => .rejected .tooFewBytes

/-! ### Encoding (30_encoding.md R72, R76) -/

/-- The word of an instruction, field by field from the formats FIXED, NNN and XYD of 30_encoding.md R72. -/
def encode : Instr → Word
  | .halt => 0b0000000000000000
  | .ret => 0b0000000011101110
  | .call nnn => 0b0010#4 ++ nnn
  | .add x y => 0b1000#4 ++ fieldOfReg x ++ fieldOfReg y ++ 0b0100#4

/-- The two bytes of a word as memory holds them, high byte at the lower address (30_encoding.md R82). -/
def bytesOfWord (w : Word) : List Byte := [highByte w, lowByte w]

/-- The bytes of an instruction. -/
def encodeBytes (i : Instr) : List Byte := bytesOfWord (encode i)

/-- The bytes a line of the listing notation places (30_encoding.md R81, R82); none for an ill-formed line. -/
def AsmLine.bytes? (l : AsmLine) : Option (List Byte) :=
  match l with
  | .word v => if v < 65536 then some (bytesOfWord (BitVec.ofNat 16 v)) else none
  | l => l.toInstr?.map encodeBytes

/-! ### The opcode table's numbering -/

/-- The instruction word the opcode table numbers `w`: bit 0 of `w` is bit 0 of the word, and every bit above `nbits` is 0. -/
def tableWord (nbits w : Nat) : Word := BitVec.ofNat 16 (w % 2 ^ nbits)

/-- The instruction the decoder reads from the bytes of a table word, none where it refuses. -/
def decodeTableWord (nbits w : Nat) : Option Instr :=
  match decode (bytesOfWord (tableWord nbits w)) with
  | .ok i _ => some i
  | .rejected _ => none

end Sys2Proof
end

