-- ==== Sys2Proof/Machine/Ops.lean ====
section
/-! DEFINITION. The named operations over memory, registers, program counter, call stack and run status. Every instruction,
the fetch and the host interface read and write state through these. -/

namespace Sys2Proof.Machine

/-! ### Memory (00_scope.md R15, 20_memory.md R50) -/

/-- `mem[a]`: one byte. The caller checks the bound first (00_scope.md R15). -/
def Memory.read : Memory → Nat → Byte
  | [], _ => unlistedByte
  | c :: m, a => if a = c.1 then c.2 else Memory.read m a

/-- The list that holds `b` at `a` in front of the later cells `m`. -/
def Memory.consCell (a : Nat) (b : Byte) (m : Memory) : Memory :=
  if b = unlistedByte then m else (a, b) :: m

/-- `mem[a] <- b`, keeping the canonical form. -/
def Memory.write : Memory → Nat → Byte → Memory
  | [], a, b => Memory.consCell a b []
  | c :: m, a, b =>
    if a < c.1 then Memory.consCell a b (c :: m)
    else if a = c.1 then Memory.consCell a b m
    else c :: Memory.write m a b

/-- `MemRead(a, 2)`: two bytes, most-significant first (00_scope.md R15, 20_memory.md R52). -/
def Memory.readWord (m : Memory) (a : Nat) : Word := wordOfBytes (m.read a) (m.read (a + 1))

/-- A word laid out as memory holds it, high byte at the lower address (30_encoding.md R82). -/
def Memory.writeWord (m : Memory) (a : Nat) (w : Word) : Memory :=
  (m.write a (highByte w)).write (a + 1) (lowByte w)

/-! ### Registers (10_state.md R21, R22; no register is hard-wired, aliased or read-only) -/

/-- `x[i]`. -/
def State.readReg (s : State) (i : RegIdx) : Byte := s.regs[i.val]

/-- `x[i] <- v`. -/
def State.writeReg (s : State) (i : RegIdx) (v : Byte) : State := { s with regs := s.regs.set i.val v }

/-! ### Program counter (10_state.md R27, 40_step_cycle.md R93) -/

/-- `pc <- target`. -/
def State.setPc (s : State) (target : Word) : State := { s with pc := target }

/-- `pc <- pc + 2`, made after every fetch and before dispatch (40_step_cycle.md R93). -/
def State.advancePc (s : State) : State := s.setPc (s.pc + 2)

/-- The address of the instruction whose handler is running: `pc` has been advanced past it (10_state.md R28). Log entry 4. -/
def State.instrAddr (s : State) : Word := s.pc - 2

/-! ### Call stack (10_state.md R31 to R34) -/

/-- `stack[k]`. -/
def State.readSlot (s : State) (k : Fin Config.stackCapacity) : Word := s.stack[k.val]

/-- The three states of the stack block (10_state.md R33). -/
inductive StackState where
  | empty
  | partly
  | full
  deriving DecidableEq, Repr

/-- The stack block's state, from `sp` alone (10_state.md R33). -/
def State.stackState (s : State) : StackState :=
  if s.sp.val = 0 then .empty else if s.sp.val = Config.stackCapacity then .full else .partly

/-- Push: none when the stack is full, which is checked before any write (10_state.md R33). -/
def State.push? (s : State) (v : Word) : Option State :=
  if h : s.sp.val < Config.stackCapacity then
    some { s with stack := s.stack.set s.sp.val v, sp := ⟨s.sp.val + 1, Nat.succ_lt_succ h⟩ }
  else none

/-- Pop: the slot at the decremented `sp` and the state after it; none when the stack is empty. The slot is not cleared
(10_state.md R33, R34). -/
def State.pop? (s : State) : Option (Word × State) :=
  if h : 0 < s.sp.val then
    have hk : s.sp.val - 1 < Config.stackCapacity :=
      Nat.lt_of_lt_of_le (Nat.sub_lt h Nat.one_pos) (Nat.le_of_lt_succ s.sp.isLt)
    some (s.stack[s.sp.val - 1], { s with sp := ⟨s.sp.val - 1, Nat.lt_succ_of_lt hk⟩ })
  else none

/-! ### Run status: halting, and taking an exception -/

/-- `halt` (00_scope.md R16): the status, and nothing else. -/
def State.halt (s : State) : State := { s with status := .halted }

/-- `raise <Condition>(info)`, the whole of taking an exception (00_scope.md R16, 60_exceptions.md R146): the status and the
fault record are written; nothing else is saved, no mode or mask exists, and control goes nowhere. What the step wrote before
the raise stays (R147). There is no return from an exception to stand beside it (R149): only reset leaves `Failed`. -/
def State.raise (s : State) (c : Condition) (addr : Word) (word : Option Word) : State :=
  { s with status := .failed, fault := some { condition := c, addr := addr, word := word } }

/-- `raise` from a handler, where `pc` has been advanced past the instruction word `w` (10_state.md R28, R39). -/
def State.raiseFrom (s : State) (c : Condition) (w : Word) : State := s.raise c s.instrAddr (some w)

/-- The numeric code of a fatal condition (60_exceptions.md R141), a label no instruction reads. -/
def Condition.code : Condition → Nat
  | .unimplementedOpcode => 1
  | .stackOverflow => 2
  | .stackUnderflow => 3
  | .outOfBoundsFetch => 4

end Sys2Proof.Machine
end

