-- ==== Sys2Proof/Machine/Operands.lean ====
section
/-! DEFINITION. The operand forms of the ISA, all of them: a register named by a 4-bit field and an absolute 12-bit address
(30_encoding.md R73, R74). -/

namespace Sys2Proof.Machine

/-- A register operand: the register's content (30_encoding.md R74). -/
def State.regOperand (s : State) (i : RegIdx) : Byte := s.readReg i

/-- `zext_16(w.nnn)`: a 12-bit absolute byte address as a program-counter value, unsigned, not relative (30_encoding.md
R73). -/
def callTarget (nnn : Imm12) : Word := nnn.setWidth 16

end Sys2Proof.Machine
end

