-- ==== Sys2Proof/Machine/Arith.lean ====
section
/-! DEFINITION. Add, the one arithmetic instruction (42_arithmetic.md). -/

namespace Sys2Proof.Machine

/-- `ADD rX, rY` (42_arithmetic.md R120): both operands are read first, then the wrapped sum is written, then the flag; when
the destination is register 15 the flag, written last, stays (R121). -/
def execAdd (x y : RegIdx) (s : State) : Result :=
  let sum := aluSum (s.regOperand x) (s.regOperand y)
  .next ((s.writeReg x (aluResult sum)).writeReg Config.flagReg (carryFlag sum))

end Sys2Proof.Machine
end

