-- ==== Sys2Proof/Machine/Control.lean ====
section
/-! DEFINITION. Call and Return (41_control_transfer.md). `pc` has been advanced before either runs, so the return address is
the address after the Call. -/

namespace Sys2Proof.Machine

/-- `CALL nnn` (41_control_transfer.md R110): push the advanced `pc`, then go to the target; a full stack raises
StackOverflow with nothing else written. -/
def execCall (nnn : Imm12) (s : State) : Result :=
  match s.push? s.pc with
  | none => .next (s.raiseFrom .stackOverflow (encode (.call nnn)))
  | some t => .next (t.setPc (callTarget nnn))

/-- `RET` (41_control_transfer.md R112): pop into `pc`; an empty stack raises StackUnderflow with nothing else written. -/
def execRet (s : State) : Result :=
  match s.pop? with
  | none => .next (s.raiseFrom .stackUnderflow (encode .ret))
  | some (v, t) => .next (t.setPc v)

end Sys2Proof.Machine
end

