-- ==== Sys2Proof/Machine/System.lean ====
section
/-! DEFINITION. Halt, and the outcome of a word that is no instruction (43_halt_and_unimplemented.md). `pc` has been
advanced before either runs. -/

namespace Sys2Proof.Machine

/-- `HALT` (43_halt_and_unimplemented.md R130): `status <- Halted`; `pc` stays past the Halt. -/
def execHalt (s : State) : Result := .next s.halt

/-- The Unimplemented-opcode outcome (43_halt_and_unimplemented.md R132): a fatal condition that records the word and its
address. -/
def execUnimplemented (w : Word) (s : State) : Result := .next (s.raiseFrom .unimplementedOpcode w)

end Sys2Proof.Machine
end

