-- ==== Sys2Proof/Machine/Dispatch.lean ====
section
/-! DEFINITION. Dispatch: exactly one handler per instruction (40_step_cycle.md R95). -/

namespace Sys2Proof.Machine

def exec (i : Instr) (s : State) : Host.Outcome State Fault Refusal :=
  match i with
  -- 43_halt_and_unimplemented.md R130
  | .halt => Sys2Proof.Machine.execHalt s
  -- 41_control_transfer.md R112
  | .ret => Sys2Proof.Machine.execRet s
  -- 41_control_transfer.md R110
  | .call nnn => Sys2Proof.Machine.execCall nnn s
  -- 42_arithmetic.md R120, R121
  | .add x y => Sys2Proof.Machine.execAdd x y s

end Sys2Proof.Machine
end

