-- ==== Sys2Proof/Machine/Cycle.lean ====
section
/-! DEFINITION. The step cycle: bounds check and fetch, advance of the program counter, decode, dispatch (40_step_cycle.md
R90 to R96), and the placing of one instruction word where the next fetch reads it. -/

namespace Sys2Proof.Machine

/-- The bounds check and the fetch (40_step_cycle.md R91, R92): none when `pc + 1` is no valid byte address, compared as a
natural number; else the big-endian word at `pc`, which may be odd (20_memory.md R53). -/
def State.fetch? (s : State) : Option Word :=
  if s.pc.toNat + 1 > Config.memSize - 1 then none else some (s.mem.readWord s.pc.toNat)

/-- Run the one action a decoded word selects (40_step_cycle.md R95). -/
def dispatch (d : Decoded) (s : State) : Result :=
  match d with
  | .instr i => exec i s
  | .unimplemented w => execUnimplemented w s

/-- One step of a running Machine (40_step_cycle.md R96): a failed bounds check raises OutOfBoundsFetch with `pc` not
advanced; otherwise `pc` is advanced before dispatch, unconditionally (R93). -/
def cycle (s : State) : Result :=
  match s.fetch? with
  | none => .next (s.raise .outOfBoundsFetch s.pc none)
  | some w => dispatch (decodeWord w) s.advancePc

/-- The address at which an instruction is placed for the next fetch: `pc` where a fetch there is in bounds, else 0. -/
def State.fetchPlace (s : State) : Word := if s.pc.toNat + 1 > Config.memSize - 1 then 0 else s.pc

/-- `s` with the word `w` where the next step fetches it, and running, so that the next step runs it. A `pc` that no fetch
can use becomes 0, and a fault record goes with the `Failed` status it belongs to. Log entry 2. -/
def State.placeWord (s : State) (w : Word) : State :=
  { s with
    mem := s.mem.writeWord s.fetchPlace.toNat w
    pc := s.fetchPlace
    status := .running
    fault := none }

end Sys2Proof.Machine
end

