-- ==== Sys2Proof/Machine/Step.lean ====
section
/-! DEFINITION. The step function of the Machine. -/

namespace Sys2Proof.Machine

/-- One step. It is defined only while `Running` (40_step_cycle.md R90); in every other status the Machine takes no step
(10_state.md R38), which is a stop under a name of its own. Log entry 1. -/
def step (s : State) : Host.Outcome State Fault Refusal :=
  match s.status with
  | .idle => .fault .notStarted
  | .running => cycle s
  | .halted => .fault .alreadyHalted
  | .failed => .fault .alreadyFailed

/-- `s` with the instruction the opcode table numbers `w` stored where `step` fetches next, and running. Log entry 2. -/
def State.withFetchWord (s : State) (nbits w : Nat) : State := s.placeWord (tableWord nbits w)

end Sys2Proof.Machine
end

