-- ==== Sys2Proof/Machine/HostInterface.lean ====
section
/-! DEFINITION. The transaction-level host interface (70_reset_and_hazards.md R170 to R178) and the run loop
(40_step_cycle.md R98, R99). -/

namespace Sys2Proof.Machine

/-- What the host can do to the Machine's state. The operand types are the ranges of 70_reset_and_hazards.md R174. -/
inductive HostCommand where
  /-- Construct, this hardware's reset (R170). -/
  | reset
  /-- `mem[a] <- b`. -/
  | writeMem (a : Imm12) (b : Byte)
  /-- `x[i] <- v`, the flags register among them. -/
  | writeReg (i : RegIdx) (v : Byte)
  /-- `pc <- p`. -/
  | writePc (p : Word)
  /-- Run (R176). -/
  | run
  deriving DecidableEq, Repr

/-- The loader's three writes (70_reset_and_hazards.md R174). -/
def HostCommand.isLoaderWrite : HostCommand → Bool
  | .writeMem _ _ => true
  | .writeReg _ _ => true
  | .writePc _ => true
  | .reset => false
  | .run => false

/-- A loader write takes effect at once, in `Idle` only (70_reset_and_hazards.md R174). -/
def State.loaderWrite (s t : State) : Result :=
  if s.status = .idle then .next t else .refused .loaderWriteOutsideIdle

/-- One host command. Each is accepted only in the statuses the spec gives it; outside them the spec defines no effect and the
command is refused by name (R171, R174, R176, R178). Log entry 3. -/
def hostExec (c : HostCommand) (s : State) : Result :=
  match c with
  | .reset => if s.status = .running then .refused .resetWhileRunning else .next State.reset
  | .writeMem a b => s.loaderWrite { s with mem := s.mem.write a.toNat b }
  | .writeReg i v => s.loaderWrite (s.writeReg i v)
  | .writePc p => s.loaderWrite (s.setPc p)
  | .run => if s.status = .idle then .next { s with status := .running } else .refused .runOutsideIdle

/-- A sequence of host commands, stopping at the first that is refused. -/
def hostExecAll : List HostCommand → State → Result
  | [], s => .next s
  | c :: cs, s =>
    match hostExec c s with
    | .next t => hostExecAll cs t
    | .fault r => .fault r
    | .refused r => .refused r

/-- What the inspector reads (70_reset_and_hazards.md R177). -/
structure Inspection where
  regs : Vector Byte Config.numRegs
  mem : Memory
  pc : Word
  sp : Fin (Config.stackCapacity + 1)
  stack : Vector Word Config.stackCapacity
  status : RunStatus
  fault : Option FaultRecord
  deriving DecidableEq, Repr

/-- Inspection: every item of state, in every status but `Running`, and `fault` only when `Failed` (R177; 10_state.md R39). It
has no state to give back, because reads change nothing. Log entry 8. -/
def inspect (s : State) : Host.Outcome Inspection Fault Refusal :=
  if s.status = .running then .refused .inspectionWhileRunning
  else .next
    { regs := s.regs, mem := s.mem, pc := s.pc, sp := s.sp, stack := s.stack, status := s.status
      fault := if s.status = .failed then s.fault else none }

/-- The run loop under a step count (40_step_cycle.md R98, R99): while `Running`, one step after another; once a step has set
`Halted` or `Failed`, no further step is taken. -/
def runFor : Nat → State → State
  | 0, s => s
  | n + 1, s =>
    match step s with
    | .next t => runFor n t
    | .fault _ => s
    | .refused _ => s

end Sys2Proof.Machine
end

