-- ==== Sys2Proof/Safety.lean ====
section
/-! DEFINITION. The terms in which claims about the Machine are stated: what the next step executes, which fatal condition is
due, the invariant of the Machine, and which states a program cannot tell apart. -/

namespace Sys2Proof.Machine

/-- What the next step of a running Machine decodes; none where its fetch is out of bounds. -/
def State.decoded? (s : State) : Option Decoded := s.fetch?.map decodeWord

/-- The Machine is running and its next step executes the instruction `i`. -/
abbrev State.Fetches (s : State) (i : Instr) : Prop :=
  s.status = .running ∧ s.decoded? = some (.instr i)

/-- The run has ended (10_state.md R38). -/
abbrev State.Ended (s : State) : Prop := s.status = .halted ∨ s.status = .failed

/-- The fatal condition that is due in a step from `s`, with its record: the rows of the table of 60_exceptions.md R141,
written without the operations of the model's step. -/
def State.dueFault? (s : State) : Option FaultRecord :=
  let w := s.mem.readWord s.pc.toNat
  if 4095 ≤ s.pc.toNat then some ⟨.outOfBoundsFetch, s.pc, none⟩
  else
    match decodeWord w with
    | .unimplemented _ => some ⟨.unimplementedOpcode, s.pc, some w⟩
    | .instr (.call _) => if s.sp.val = 16 then some ⟨.stackOverflow, s.pc, some w⟩ else none
    | .instr .ret => if s.sp.val = 0 then some ⟨.stackUnderflow, s.pc, some w⟩ else none
    | .instr .halt => none
    | .instr (.add _ _) => none

/-- The record `r` tells truly why the state `s` failed (10_state.md R39, 60_exceptions.md R141, R147): `addr` is where `pc`
was, `word` the word that stands there, and the condition is the one that word and `sp` make due. -/
def State.FaultJustified (s : State) (r : FaultRecord) : Prop :=
  let w := s.mem.readWord r.addr.toNat
  match r.condition with
  | .outOfBoundsFetch => 4095 ≤ r.addr.toNat ∧ s.pc = r.addr ∧ r.word = none
  | .unimplementedOpcode =>
    r.addr.toNat ≤ 4094 ∧ s.pc = r.addr + 2 ∧ r.word = some w ∧ decodeWord w = .unimplemented w
  | .stackOverflow =>
    r.addr.toNat ≤ 4094 ∧ s.pc = r.addr + 2 ∧ r.word = some w ∧ s.sp.val = 16 ∧ ∃ nnn, decodeWord w = .instr (.call nnn)
  | .stackUnderflow =>
    r.addr.toNat ≤ 4094 ∧ s.pc = r.addr + 2 ∧ r.word = some w ∧ s.sp.val = 0 ∧ decodeWord w = .instr .ret

/-- The invariant of the Machine. Reset meets it, and every step and every host command keep it. -/
structure State.Inv (s : State) : Prop where
  /-- Memory is in its canonical form (log entry 6). -/
  memCanonical : s.mem.wf
  /-- There is a fault record when the status is `Failed` (10_state.md R39), and none in any other status, where the spec gives the
  item no meaning: log entry 5, DESIGN CHOICE. -/
  faultIffFailed : s.fault.isSome = true ↔ s.status = .failed
  /-- Before the run the call stack is empty and zero (70_reset_and_hazards.md R174, R175). -/
  idleStackEmpty : s.status = .idle → s.sp.val = 0 ∧ ∀ k, s.readSlot k = 0
  /-- Every live slot holds a return address some Call saved: 2 to 4096 (10_state.md R27, 41_control_transfer.md R110). -/
  liveSlots : ∀ k : Fin Config.stackCapacity, k.val < s.sp.val → 2 ≤ (s.readSlot k).toNat ∧ (s.readSlot k).toNat ≤ 4096
  /-- A fault record tells truly why the Machine failed. -/
  faultJustified : ∀ r, s.fault = some r → s.FaultJustified r

/-- `pc` and every live slot are at most `b` (10_state.md R27). -/
def State.AddressesAtMost (s : State) (b : Nat) : Prop :=
  s.pc.toNat ≤ b ∧ ∀ k : Fin Config.stackCapacity, k.val < s.sp.val → (s.readSlot k).toNat ≤ b

/-- The two states agree on the live part of the call stack, `stack[0]` to `stack[sp - 1]` (10_state.md R32). -/
def State.SameLiveStack (s t : State) : Prop :=
  s.sp = t.sp ∧ ∀ k : Fin Config.stackCapacity, k.val < s.sp.val → s.readSlot k = t.readSlot k

/-- The two states agree on everything that can direct control (40_step_cycle.md R100): memory, `pc`, `sp`, the live stack,
the status and the fault record. The registers and the stale slots may differ. -/
def State.SameControl (s t : State) : Prop :=
  s.mem = t.mem ∧ s.pc = t.pc ∧ s.status = t.status ∧ s.fault = t.fault ∧ s.SameLiveStack t

/-- The two states differ at most in stale slots (10_state.md R34). -/
def State.SameButStale (s t : State) : Prop := s.SameControl t ∧ s.regs = t.regs

/-- What the loader's writes leave in register `i`, from the value `v`. -/
def loadedReg (cs : List HostCommand) (i : RegIdx) (v : Byte) : Byte :=
  cs.foldl (fun v c => match c with | .writeReg j w => if j = i then w else v | _ => v) v

/-- What the loader's writes leave at address `a`, from the byte `v`. -/
def loadedByte (cs : List HostCommand) (a : Nat) (v : Byte) : Byte :=
  cs.foldl (fun v c => match c with | .writeMem j w => if j.toNat = a then w else v | _ => v) v

/-- What the loader's writes leave in `pc`, from the value `v`. -/
def loadedPc (cs : List HostCommand) (v : Word) : Word :=
  cs.foldl (fun v c => match c with | .writePc p => p | _ => v) v

end Sys2Proof.Machine
end

