-- ==== Sys2Proof/Safety/Pseudocode.lean ====
section
/-! DEFINITION. The step function of 40_step_cycle.md R96 transcribed line by line over natural numbers and total functions,
independently of the model's own step, and the view of a model state it is compared with. Nothing in the model calls it. -/

namespace Sys2Proof.Pseudocode

/-- `status` with the condition and info of `Failed` (10_state.md R37, R39). -/
inductive Status where
  | idle
  | running
  | halted
  | failed (info : Option (Machine.Condition × Nat × Option Nat))
  deriving DecidableEq, Repr

/-- The items of 10_state.md R20 as the pseudocode writes them: numbers, and `x[i]`, `mem[a]`, `stack[k]` as functions. -/
structure PState where
  x : Nat → Nat
  mem : Nat → Nat
  pc : Nat
  stack : Nat → Nat
  sp : Nat
  status : Status

/-- `f[k] <- v`. -/
def update (f : Nat → Nat) (k v : Nat) : Nat → Nat := fun i => if i = k then v else f i

/-- `raise <Condition>(addr, word)`. -/
def raise (s : PState) (c : Machine.Condition) (addr : Nat) (word : Option Nat) : PState :=
  { s with status := .failed (some (c, addr, word)) }

/-- The action of `Return`. -/
def doReturn (s : PState) (a w : Nat) : PState :=
  if s.sp = 0 then raise s .stackUnderflow a (some w)
  else
    let s := { s with sp := s.sp - 1 }
    { s with pc := s.stack s.sp }

/-- The action of `Call(nnn)`. -/
def doCall (s : PState) (a w nnn : Nat) : PState :=
  if s.sp = 16 then raise s .stackOverflow a (some w)
  else
    let s := { s with stack := update s.stack s.sp s.pc }
    let s := { s with sp := s.sp + 1 }
    { s with pc := nnn }

/-- The action of `Add(i, j)`. -/
def doAdd (s : PState) (i j : Nat) : PState :=
  let sum := s.x i + s.x j
  let s := { s with x := update s.x i (sum % 256) }
  { s with x := update s.x 15 (if sum > 255 then 1 else 0) }

/-- `step()` of 40_step_cycle.md R96, for a state with `status == Running`; the fields of the word are those of
30_encoding.md R71 by division. -/
def step (s : PState) : PState :=
  let a := s.pc
  if a ≥ 4096 - 1 then raise s .outOfBoundsFetch a none
  else
    let w := s.mem a * 256 + s.mem (a + 1)
    let s := { s with pc := a + 2 }
    let c := w / 4096
    let x := w / 256 % 16
    let y := w / 16 % 16
    let d := w % 16
    let nnn := w % 4096
    if c = 0 ∧ x = 0 ∧ y = 0 ∧ d = 0 then { s with status := .halted }
    else if c = 0 ∧ x = 0 ∧ y = 0xE ∧ d = 0xE then doReturn s a w
    else if c = 2 then doCall s a w nnn
    else if c = 8 ∧ d = 4 then doAdd s x y
    else raise s .unimplementedOpcode a (some w)

/-- The run status of a model state as the pseudocode writes it. -/
def statusView (s : Machine.State) : Status :=
  match s.status with
  | .idle => .idle
  | .running => .running
  | .halted => .halted
  | .failed => .failed (s.fault.map fun r => (r.condition, r.addr.toNat, r.word.map BitVec.toNat))

/-- A model state as the pseudocode sees it; an index outside a storage reads 0. -/
def view (s : Machine.State) : PState where
  x := fun i => if h : i < 16 then (s.readReg ⟨i, h⟩).toNat else 0
  mem := fun a => (s.mem.read a).toNat
  pc := s.pc.toNat
  stack := fun k => if h : k < 16 then (s.readSlot ⟨k, h⟩).toNat else 0
  sp := s.sp.val
  status := statusView s

end Sys2Proof.Pseudocode
end

