-- ==== Sys2Proof/Certificates/Slice0/Obligations.lean ====
section
/-! DEFINITION. The statements for the provers. Each docstring names the rule of spec/ it formalises; a statement that rests on
a rule the spec itself marks as derived, or on a choice of the model, says so. -/

open Sys2Proof Sys2Proof.Machine

/-! ### Reset -/

/-- 10_state.md R41: after reset every item of state has its stated value, and every word of memory is Halt. -/
def Obligations.ResetLeavesEveryItemAtItsStatedValue : Prop :=
  (∀ i, State.reset.readReg i = 0) ∧ (∀ a, State.reset.mem.read a = 0) ∧ State.reset.pc = 0 ∧
  State.reset.sp.val = 0 ∧ (∀ k, State.reset.readSlot k = 0) ∧ State.reset.status = .idle ∧
  State.reset.fault = none ∧ ∀ a, decodeWord (State.reset.mem.readWord a) = .instr .halt

/-! ### Encoding -/

/-- 30_encoding.md R75, on the fields as numbers (R71). Each clause stands without the ones before it, which says that the
order of the tests cannot change the result. -/
def Obligations.DecodeIsTheFiveWayChoice : Prop :=
  ∀ w : Word,
    let c := w.toNat / 4096
    let x := w.toNat / 256 % 16
    let y := w.toNat / 16 % 16
    let d := w.toNat % 16
    (c = 0 ∧ x = 0 ∧ y = 0 ∧ d = 0 → decodeWord w = .instr .halt) ∧
    (c = 0 ∧ x = 0 ∧ y = 0xE ∧ d = 0xE → decodeWord w = .instr .ret) ∧
    (c = 2 → ∃ nnn : Imm12, nnn.toNat = w.toNat % 4096 ∧ decodeWord w = .instr (.call nnn)) ∧
    (c = 8 ∧ d = 4 → ∃ i j : RegIdx, i.val = x ∧ j.val = y ∧ decodeWord w = .instr (.add i j)) ∧
    (¬(c = 0 ∧ x = 0 ∧ y = 0 ∧ d = 0) → ¬(c = 0 ∧ x = 0 ∧ y = 0xE ∧ d = 0xE) → ¬c = 2 → ¬(c = 8 ∧ d = 4) →
      decodeWord w = .unimplemented w)

/-- A word decodes to an instruction exactly when it is that instruction's encoding, and an instruction's bytes at the head of
any bytes decode to it and leave the rest. Rests on 30_encoding.md sections 3 and 6 ("Encoding an instruction, the inverse of
R75", which the spec marks derived). -/
def Obligations.DecodeAndEncodeAgree : Prop :=
  (∀ (w : Word) (i : Instr), decodeWord w = .instr i ↔ encode i = w) ∧
  ∀ (i : Instr) (rest : List Byte), decode (encodeBytes i ++ rest) = .ok i rest

/-- The words and bytes 30_encoding.md section 6 gives ("`HALT` is `0x0000`; `RET` is `0x00EE`; `CALL nnn` is `0x2000 + nnn`;
`ADD rX, rY` is `0x8004 + X * 256 + Y * 16`", which the spec marks derived). -/
def Obligations.EncodedWordsAreTheStatedSums : Prop :=
  (encode .halt).toNat = 0x0000 ∧ (encode .ret).toNat = 0x00EE ∧
  (∀ nnn : Imm12, (encode (.call nnn)).toNat = 0x2000 + nnn.toNat) ∧
  (∀ x y : RegIdx, (encode (.add x y)).toNat = 0x8004 + x.val * 256 + y.val * 16) ∧
  (∀ i : Instr, ∃ hi lo : Byte, encodeBytes i = [hi, lo] ∧ (encode i).toNat = hi.toNat * 256 + lo.toNat)

/-- Words written out from 30_encoding.md R76 and the near misses of R79: a sanity check of the decoder. -/
def Obligations.WordsOfTheTableDecode : Prop :=
  decodeWord 0b0000000000000000 = .instr .halt ∧ decodeWord 0b0000000011101110 = .instr .ret ∧
  decodeWord 0b0010000100000000 = .instr (.call 0x100) ∧ decodeWord 0b1000101010110100 = .instr (.add 10 11) ∧
  decodeWord 0x00E0 = .unimplemented 0x00E0 ∧ decodeWord 0x01EE = .unimplemented 0x01EE ∧
  decodeWord 0x8015 = .unimplemented 0x8015 ∧ decodeWord 0x1234 = .unimplemented 0x1234

/-- The listing notation of 30_encoding.md section 6 (R81, the spec's own notation, D15): a line has bytes exactly when its
numbers are in range, and a line that is an instruction has that instruction's bytes. -/
def Obligations.ListingLinesHaveBytesExactlyWhenWellFormed : Prop :=
  ∀ l : AsmLine, (l.bytes?.isSome = true ↔ l.wellFormed = true) ∧
    ∀ i, l.toInstr? = some i → l.bytes? = some (encodeBytes i)

/-! ### The step cycle -/

/-- 40_step_cycle.md R92, R93: while the Machine runs and `pc` is at most 4094, even or odd, the step reads the big-endian word
at `pc`, advances `pc` by 2 with no wrap, and then runs the instruction the word decodes to, or raises UnimplementedOpcode. -/
def Obligations.StepRunsTheDecodedWordWithPcAdvanced : Prop :=
  ∀ (s : State) (w : Word), s.status = .running → s.pc.toNat ≤ 4094 →
    w.toNat = (s.mem.read s.pc.toNat).toNat * 256 + (s.mem.read (s.pc.toNat + 1)).toNat →
    (s.pc + 2).toNat = s.pc.toNat + 2 ∧
    (∀ i, decodeWord w = .instr i → step s = exec i { s with pc := s.pc + 2 }) ∧
    (∀ v, decodeWord w = .unimplemented v → step s = .next
      { s with pc := s.pc + 2, status := .failed, fault := some ⟨.unimplementedOpcode, s.pc, some w⟩ })

/-- 40_step_cycle.md R91: a fetch at 4095 or beyond, up to the largest 16-bit `pc`, raises OutOfBoundsFetch and changes nothing
else; a fetch at 4094 or below raises it never. -/
def Obligations.FetchIsOutOfBoundsExactlyFrom4095 : Prop :=
  ∀ s : State, s.status = .running →
    (4095 ≤ s.pc.toNat →
      step s = .next { s with status := .failed, fault := some ⟨.outOfBoundsFetch, s.pc, none⟩ }) ∧
    (s.pc.toNat ≤ 4094 → ∃ t, step s = .next t ∧
      (t.status = .failed → ∃ r, t.fault = some r ∧ r.condition ≠ .outOfBoundsFetch))

/-- 60_exceptions.md R143: executing any word that is the encoding of no instruction raises UnimplementedOpcode after the
fetch and the advance of `pc`, recording the word, and changes nothing else. -/
def Obligations.EveryOtherWordIsAnUnimplementedOpcode : Prop :=
  ∀ (s : State) (w : Word), s.status = .running → s.fetch? = some w → (∀ i, encode i ≠ w) →
    step s = .next
      { s with pc := s.pc + 2, status := .failed, fault := some ⟨.unimplementedOpcode, s.pc, some w⟩ }

/-- 40_step_cycle.md sections 1 and 5: a step is defined exactly while Running ("A step is defined only when `status ==
Running`", "It is total on every state with `status == Running`"), and no step refuses. That the model answers a named fault
where no step is defined is log entry 1. -/
def Obligations.StepAnswersANextStateExactlyWhileRunning : Prop :=
  ∀ s : State, ((∃ t, step s = .next t) ↔ s.status = .running) ∧ ∀ r, step s ≠ .refused r

/-- The step function of 40_step_cycle.md section 5, transcribed over natural numbers in `Pseudocode.step` (the spec marks the
assembled function as derived from its parts): every step of the model, seen as that pseudocode sees it, is one step of the
pseudocode, in every running state. -/
def Obligations.StepRefinesThePseudocode : Prop :=
  ∀ s : State, s.status = .running →
    ∃ t, step s = .next t ∧ Pseudocode.view t = Pseudocode.step (Pseudocode.view s)

/-! ### The four instructions -/

/-- 43_halt_and_unimplemented.md R130: Halt sets the status and nothing else; `pc` stays past the Halt; no further step is
taken; a Machine run with nothing loaded halts in its first step with `pc` at 2. -/
def Obligations.HaltEndsTheRunWithPcAdvanced : Prop :=
  (∀ s : State, exec .halt s = .next { s with status := .halted }) ∧
  (∀ s : State, s.Fetches .halt →
    step s = .next { s with pc := s.pc + 2, status := .halted } ∧ (s.pc + 2).toNat = s.pc.toNat + 2 ∧
    ∀ t, step { s with pc := s.pc + 2, status := .halted } ≠ .next t) ∧
  step { State.reset with status := .running } = .next { State.reset with pc := 2, status := .halted }

/-- 41_control_transfer.md R110 (and R144): a Call on a stack that is not full pushes the advanced `pc`, increments `sp` and
goes to its target, whatever the target; in a step the saved address is the Call's own plus 2. On a full stack it raises
StackOverflow with nothing else written. -/
def Obligations.CallPushesTheAdvancedPc : Prop :=
  ∀ (s : State) (nnn : Imm12),
    (s.sp.val < 16 → ∃ t, exec (.call nnn) s = .next t ∧ t.pc.toNat = nnn.toNat ∧ t.sp.val = s.sp.val + 1 ∧
      (∀ k, t.readSlot k = if k.val = s.sp.val then s.pc else s.readSlot k) ∧
      (∀ i, t.readReg i = s.readReg i) ∧ (∀ a, t.mem.read a = s.mem.read a) ∧
      t.status = s.status ∧ t.fault = s.fault) ∧
    (s.Fetches (.call nnn) → s.sp.val < 16 → ∃ t, step s = .next t ∧ t.pc.toNat = nnn.toNat ∧
      t.sp.val = s.sp.val + 1 ∧ t.status = .running ∧ (∀ i, t.readReg i = s.readReg i) ∧
      ∀ k, (k.val = s.sp.val → (t.readSlot k).toNat = s.pc.toNat + 2) ∧
        (k.val ≠ s.sp.val → t.readSlot k = s.readSlot k)) ∧
    (s.Fetches (.call nnn) → s.sp.val = 16 → ∃ w : Word, w.toNat = 0x2000 + nnn.toNat ∧
      step s = .next { s with pc := s.pc + 2, status := .failed, fault := some ⟨.stackOverflow, s.pc, some w⟩ })

/-- 41_control_transfer.md R112 (and R145): a Return on a stack that is not empty decrements `sp` and sets `pc` to the slot at
the new `sp`, which keeps its value; on an empty stack it raises StackUnderflow with nothing else written. -/
def Obligations.ReturnPopsIntoPc : Prop :=
  ∀ s : State,
    (0 < s.sp.val → ∃ t, exec .ret s = .next t ∧ t.sp.val = s.sp.val - 1 ∧
      (∀ k : Fin 16, k.val = s.sp.val - 1 → t.pc = s.readSlot k) ∧ (∀ k, t.readSlot k = s.readSlot k) ∧
      (∀ i, t.readReg i = s.readReg i) ∧ (∀ a, t.mem.read a = s.mem.read a) ∧
      t.status = s.status ∧ t.fault = s.fault) ∧
    (s.Fetches .ret → 0 < s.sp.val → ∃ t, step s = .next t ∧ t.sp.val = s.sp.val - 1 ∧ t.status = .running ∧
      (∀ k : Fin 16, k.val = s.sp.val - 1 → t.pc = s.readSlot k) ∧ (∀ k, t.readSlot k = s.readSlot k) ∧
      ∀ i, t.readReg i = s.readReg i) ∧
    (s.Fetches .ret → s.sp.val = 0 → step s = .next
      { s with pc := s.pc + 2, status := .failed, fault := some ⟨.stackUnderflow, s.pc, some 0x00EE⟩ })

/-- 10_state.md R33: the stack block is Empty, Partial or Full by `sp`; a Call pushes the advanced `pc` unless it is Full, a Return
pops the slot at the new `sp` unless it is Empty, and in those states the condition is raised before any write of the stack. -/
def Obligations.StackBlockIsTheStatedStateMachine : Prop :=
  (∀ s : State, (s.stackState = .empty ↔ s.sp.val = 0) ∧ (s.stackState = .full ↔ s.sp.val = 16) ∧
    (s.stackState = .partly ↔ 0 < s.sp.val ∧ s.sp.val < 16)) ∧
  (∀ (s t : State) (nnn : Imm12), s.Fetches (.call nnn) → step s = .next t →
    (s.stackState = .full → t.stack = s.stack ∧ t.sp = s.sp ∧
      t.fault.map FaultRecord.condition = some .stackOverflow) ∧
    (s.stackState ≠ .full → t.stackState ≠ .empty ∧ t.sp.val = s.sp.val + 1 ∧
      ∀ k : Fin 16, k.val = s.sp.val → t.readSlot k = s.pc + 2)) ∧
  (∀ s t : State, s.Fetches .ret → step s = .next t →
    (s.stackState = .empty → t.stack = s.stack ∧ t.sp = s.sp ∧
      t.fault.map FaultRecord.condition = some .stackUnderflow) ∧
    (s.stackState ≠ .empty → t.stackState ≠ .full ∧ t.sp.val + 1 = s.sp.val ∧
      ∀ k : Fin 16, k.val = t.sp.val → t.pc = s.readSlot k))

/-- 42_arithmetic.md R120, R121: Add completes in every state; register 15 takes the flag, register `x` (when it is not 15) the
wrapped sum of the operands as they were, and nothing else changes; in a step `pc` is the Add's address plus 2. -/
def Obligations.AddWritesTheSumAndThenTheFlag : Prop :=
  ∀ (s : State) (x y : RegIdx),
    (∃ t, exec (.add x y) s = .next t ∧
      (let sum := (s.readReg x).toNat + (s.readReg y).toNat
       ∀ i, (t.readReg i).toNat =
         if i = 15 then (if sum > 255 then 1 else 0) else if i = x then sum % 256 else (s.readReg i).toNat) ∧
      t.pc = s.pc ∧ t.sp = s.sp ∧ (∀ k, t.readSlot k = s.readSlot k) ∧ (∀ a, t.mem.read a = s.mem.read a) ∧
      t.status = s.status ∧ t.fault = s.fault) ∧
    (s.Fetches (.add x y) → ∃ t, step s = .next t ∧ exec (.add x y) { s with pc := s.pc + 2 } = .next t ∧
      t.pc.toNat = s.pc.toNat + 2 ∧ t.status = .running)

/-- 42_arithmetic.md section 2 (R122, stated in part): the flag and the result together lose nothing of the sum, for every
pair of registers whose destination is not the flags register, whatever the previous flag. -/
def Obligations.AddFlagAndResultMakeTheSum : Prop :=
  ∀ (s : State) (x y : RegIdx), x ≠ 15 → ∃ t, exec (.add x y) s = .next t ∧
    (t.readReg 15).toNat * 256 + (t.readReg x).toNat = (s.readReg x).toNat + (s.readReg y).toNat ∧
    ((t.readReg 15).toNat = 1 ↔ (s.readReg x).toNat + (s.readReg y).toNat > 255)

/-- 10_state.md R25: after every Add register 15 is 0 or 1 and depends on that Add's operands only; outside Add it can hold any
value, for the loader may set it, and it is 0 after reset. -/
def Obligations.TheFlagIsFreshAfterEveryAdd : Prop :=
  (∀ (s t : State) (x y : RegIdx), exec (.add x y) s = .next t →
    ((t.readReg 15).toNat = 0 ∨ (t.readReg 15).toNat = 1) ∧
    ∀ s' : State, s'.readReg x = s.readReg x → s'.readReg y = s.readReg y →
      ∃ t', exec (.add x y) s' = .next t' ∧ t'.readReg 15 = t.readReg 15) ∧
  (∀ (s : State) (v : Byte), s.status = .idle → ∃ t, hostExec (.writeReg 15 v) s = .next t ∧ t.readReg 15 = v) ∧
  State.reset.readReg 15 = 0

/-- 42_arithmetic.md R124: `ADD rX, rY` and `ADD rY, rX` compute the same sum and flag but write different registers. -/
def Obligations.AddCommutesInValueAndNotInEffect : Prop :=
  ∀ (s : State) (x y : RegIdx), ∃ t u, exec (.add x y) s = .next t ∧ exec (.add y x) s = .next u ∧
    t.readReg 15 = u.readReg 15 ∧
    (x ≠ 15 → y ≠ 15 → t.readReg x = u.readReg y) ∧
    (x ≠ y → x ≠ 15 → u.readReg x = s.readReg x) ∧ (x ≠ y → y ≠ 15 → t.readReg y = s.readReg y)

/-- 10_state.md R23, R26: Add writes its destination and register 15 and no other register; Halt, Return, Call, the Unimplemented
outcome and an out-of-bounds fetch write no register (the flags register among them) and read none: with any other register
contents the step does the same and leaves those contents. The loader may write any register, the inspector reads all. -/
def Obligations.OnlyAddUsesRegisters : Prop :=
  (∀ s t : State, step s = .next t →
    (∀ x y, s.decoded? = some (.instr (.add x y)) → ∀ i, i ≠ x → i ≠ 15 → t.readReg i = s.readReg i) ∧
    ((∀ x y, s.decoded? ≠ some (.instr (.add x y))) →
      (∀ i, t.readReg i = s.readReg i) ∧
      ∀ r, step { s with regs := r } = .next { t with regs := r })) ∧
  (∀ (s : State) (i : RegIdx) (v : Byte), s.status = .idle →
    ∃ t, hostExec (.writeReg i v) s = .next t ∧ t.readReg i = v) ∧
  (∀ s : State, s.Ended → ∃ v, inspect s = .next v ∧ ∀ i : RegIdx, v.regs[i.val] = s.readReg i)

/-- The frame of every instruction (40_step_cycle.md section 5, "What a step does not do"): no instruction writes memory; no
register changes but an Add's destination and register 15; `sp` and slots change by Call and Return only, of the slots the one a
Call pushes; Halt and Add leave `pc`; only an instruction that halts or raises changes the status or the fault record. -/
def Obligations.InstructionsChangeNothingElse : Prop :=
  ∀ (i : Instr) (s t : State), exec i s = .next t →
    (∀ a, t.mem.read a = s.mem.read a) ∧
    (∀ r, (∀ x y, i = .add x y → r ≠ x ∧ r ≠ 15) → t.readReg r = s.readReg r) ∧
    (∀ k : Fin 16, (∀ nnn, i = .call nnn → k.val ≠ s.sp.val) → t.readSlot k = s.readSlot k) ∧
    ((∀ nnn, i ≠ .call nnn) → i ≠ .ret → t.sp = s.sp ∧ t.pc = s.pc) ∧
    (i ≠ .halt → t.status ≠ .failed → t.status = s.status) ∧
    (t.status ≠ .failed → t.fault = s.fault)

/-! ### Memory -/

/-- 20_memory.md sections 8 and 10: no step of a run, of any length, changes any byte of memory. -/
def Obligations.MemoryIsConstantDuringARun : Prop :=
  ∀ (n : Nat) (s : State) (a : Nat), (runFor n s).mem.read a = s.mem.read a

/-! ### Fatal conditions -/

/-- 60_exceptions.md R147: the state a fatal condition leaves is the state before the step with the advance of `pc`, and not even
that for an out-of-bounds fetch. -/
def Obligations.FatalConditionsArePrecise : Prop :=
  ∀ s t : State, step s = .next t → t.status = .failed →
    (4095 ≤ s.pc.toNat → t.pc = s.pc) ∧ (s.pc.toNat ≤ 4094 → t.pc.toNat = s.pc.toNat + 2) ∧
    (∀ i, t.readReg i = s.readReg i) ∧ (∀ a, t.mem.read a = s.mem.read a) ∧
    (∀ k, t.readSlot k = s.readSlot k) ∧ t.sp = s.sp

/-- 60_exceptions.md R141: a step raises a condition exactly when the table says one is due, and records what the table says; the
codes are the table's. -/
def Obligations.ConditionsAreRaisedExactlyWhenDue : Prop :=
  (∀ s : State, s.status = .running → ∃ t, step s = .next t ∧
    (∀ r, s.dueFault? = some r → t.status = .failed ∧ t.fault = some r) ∧
    (s.dueFault? = none → t.status ≠ .failed ∧ t.fault = s.fault)) ∧
  (∀ (s : State) (r : FaultRecord), s.dueFault? = some r →
    (r.condition = .stackUnderflow → r.word = some 0x00EE) ∧
    (r.condition = .stackOverflow → ∃ w : Word, r.word = some w ∧ w.toNat / 4096 = 2) ∧
    (r.condition = .unimplementedOpcode → ∃ w : Word, r.word = some w ∧ ∀ i, encode i ≠ w)) ∧
  Condition.unimplementedOpcode.code = 1 ∧ Condition.stackOverflow.code = 2 ∧
  Condition.stackUnderflow.code = 3 ∧ Condition.outOfBoundsFetch.code = 4

/-- 10_state.md section 7, 70_reset_and_hazards.md section 1: in Halted and Failed no step and no run changes anything, and
reset discards everything. The clause that every host command but reset is REFUSED there is the model's choice, log entry 3 (DEDUCED):
10_state.md R38 and 70_reset_and_hazards.md R176 give Run no meaning there, and R174 lets the loader write only in Idle, without
saying what such a command does. That no step is a named fault is log entry 1. -/
def Obligations.EndedMachineStaysUntilReset : Prop :=
  ∀ s : State, s.Ended →
    (∀ t, step s ≠ .next t) ∧ (∀ n, runFor n s = s) ∧
    (∀ c, c ≠ .reset → ∃ r, hostExec c s = .refused r) ∧ hostExec .reset s = .next State.reset

/-- The transitions of the run status, 10_state.md section 7 with the host commands of 70_reset_and_hazards.md sections 1
and 2. A step halts exactly on Halt, fails exactly when a condition is due, else stays Running; Run leads from Idle to Running, a
loader write stays in Idle; no instruction sees the status. The spec's reset leads to Idle "from anywhere"; the model accepts it from
every status but Running, where the spec describes no reset and assumes the host gives none (R171, R178). That it is refused there,
and that Run and a loader write outside Idle are refused, is the model's choice, log entry 3 (DEDUCED). -/
def Obligations.StatusChangesOnlyAsStated : Prop :=
  (∀ s t : State, step s = .next t → s.status = .running ∧ t.status ≠ .idle ∧
    (t.status = .halted ↔ s.decoded? = some (.instr .halt)) ∧
    (t.status = .failed ↔ s.dueFault?.isSome = true)) ∧
  (∀ (c : HostCommand) (s t : State), hostExec c s = .next t →
    (c = .run → s.status = .idle ∧ t.status = .running) ∧ (c = .reset → t.status = .idle) ∧
    (c.isLoaderWrite = true → s.status = .idle ∧ t.status = .idle)) ∧
  (∀ s : State, s.status = .idle → ∃ t, hostExec .run s = .next t ∧ t.status = .running) ∧
  (∀ s : State, s.status ≠ .running → ∃ t, hostExec .reset s = .next t ∧ t.status = .idle) ∧
  (∀ (i : Instr) (s t : State) (st : RunStatus), exec i s = .next t →
    ∃ u, exec i { s with status := st } = .next u ∧ u.regs = t.regs ∧ u.mem = t.mem ∧ u.pc = t.pc ∧
      u.stack = t.stack ∧ u.sp = t.sp ∧ u.fault = t.fault)

/-! ### Invariants -/

/-- Every step keeps the invariant of the Machine. From the spec: a record in Failed tells truly why the Machine failed
(10_state.md section 7, 60_exceptions.md section 2), and every live slot holds a return address a Call saved (10_state.md sections 4
and 5). The model's choice: that NO record stands while the status is not Failed is log entry 5 (DESIGN CHOICE, unsafe), for the spec
gives the item no meaning there; that memory is kept in its canonical form is log entry 6 (DEDUCED). -/
def Obligations.EveryStepKeepsTheMachineInvariant : Prop :=
  ∀ s t : State, s.Inv → step s = .next t → t.Inv

/-- The reset state meets the invariant of the Machine (10_state.md section 9, which gives `fault` no value at reset). Two
clauses of that invariant are the model's choice: no fault record outside Failed after reset too, log entry 5 (DESIGN CHOICE, unsafe),
and memory in its canonical form, log entry 6 (DEDUCED). -/
def Obligations.ResetMeetsTheMachineInvariant : Prop := State.reset.Inv

/-- Every host command that is accepted keeps the invariant of the Machine (70_reset_and_hazards.md sections 1 and 2). Two
clauses of that invariant are the model's choice: no fault record outside Failed, log entry 5 (DESIGN CHOICE, unsafe), and memory in
its canonical form, log entry 6 (DEDUCED). Which commands are accepted is log entry 3 (DEDUCED). -/
def Obligations.HostCommandsKeepTheMachineInvariant : Prop :=
  ∀ (c : HostCommand) (s t : State), s.Inv → hostExec c s = .next t → t.Inv

/-- 10_state.md section 4 ("from a loaded `pc` value `p0`, every later value of `pc` is at most `max(p0, 4096)`", which the spec
marks derived): the bound on `pc` and the live slots is kept by every step, and holds along every run with an empty stack. -/
def Obligations.PcStaysWithinTheStatedBound : Prop :=
  (∀ (b : Nat) (s t : State), 4096 ≤ b → s.AddressesAtMost b → step s = .next t → t.AddressesAtMost b) ∧
  ∀ (s : State) (n : Nat), s.sp.val = 0 → (runFor n s).pc.toNat ≤ max s.pc.toNat 4096

/-! ### Whole runs -/

/-- 41_control_transfer.md section 3 (the round trip, whose precise form the spec marks derived): if a Call at `s` executes with
`sp == k < 16` and the first later Return that executes with `sp == k + 1` executes at `u`, then after it `pc` is the Call's
address plus 2 and `sp` is `k`. -/
def Obligations.MatchingReturnComesBackAfterTheCall : Prop :=
  ∀ (s s₁ t : State) (nnn : Imm12) (n : Nat), s.Fetches (.call nnn) → s.sp.val < 16 → step s = .next s₁ →
    (∀ j, j < n → ¬((runFor j s₁).Fetches .ret ∧ (runFor j s₁).sp.val = s.sp.val + 1)) →
    (runFor n s₁).Fetches .ret → (runFor n s₁).sp.val = s.sp.val + 1 → step (runFor n s₁) = .next t →
    t.pc.toNat = s.pc.toNat + 2 ∧ t.sp = s.sp

/-- 41_control_transfer.md section 3 ("A program cannot therefore return to any address but `a + 2` of an executed Call", which
the spec marks derived): in a run that starts with an empty stack, every Return that completes goes to the address after a Call
that completed earlier in the run. -/
def Obligations.ReturnsGoOnlyBehindExecutedCalls : Prop :=
  ∀ (s t : State) (n : Nat), s.sp.val = 0 → (runFor n s).Fetches .ret → 0 < (runFor n s).sp.val →
    step (runFor n s) = .next t →
    ∃ j, j < n ∧ (∃ nnn, (runFor j s).Fetches (.call nnn)) ∧ (runFor j s).sp.val < 16 ∧
      t.pc.toNat = (runFor j s).pc.toNat + 2

/-- 40_step_cycle.md section 6 ("Every run ends after finitely many steps, in `Halted` or `Failed`", which the spec marks derived):
from every running state, whatever its memory, `pc`, stack and registers. -/
def Obligations.EveryRunEnds : Prop :=
  ∀ s : State, s.status = .running → ∃ n, (runFor n s).Ended

/-- 40_step_cycle.md section 6 (the argument that control never depends on `x[]`, which the spec marks derived): two running states
that agree on memory, `pc`, `sp` and the live stack step to states that agree on them, whatever their registers. -/
def Obligations.ControlNeverDependsOnRegisters : Prop :=
  ∀ s t s' : State, s.SameControl t → step s = .next s' → ∃ t', step t = .next t' ∧ s'.SameControl t'

/-- 10_state.md R34: a Return leaves every slot as it is; stale slots are never read by an instruction (states that differ in
stale slots only step to states that differ in stale slots only), and the inspector reads them. -/
def Obligations.StaleSlotsStayAndAreNeverRead : Prop :=
  (∀ s t : State, exec .ret s = .next t → ∀ k, t.readSlot k = s.readSlot k) ∧
  (∀ s t s' : State, s.SameButStale t → step s = .next s' → ∃ t', step t = .next t' ∧ s'.SameButStale t') ∧
  (∀ s : State, s.Ended → ∃ v, inspect s = .next v ∧ ∀ k : Fin 16, v.stack[k.val] = s.readSlot k)

/-- 40_step_cycle.md section 6: the run loop under a step count gives the states of the host's own iteration of `step`, and once
the Machine has stopped a larger count changes nothing. -/
def Obligations.RunLoopGivesTheStatesOfTheIteratedStep : Prop :=
  (∀ (n : Nat) (s t : State), Host.Core.run core n s = .next t → runFor n s = t) ∧
  ∀ (n m : Nat) (s : State), (runFor n s).status ≠ .running → n ≤ m → runFor m s = runFor n s

/-! ### The host interface -/

/-- 70_reset_and_hazards.md section 2 (loader writes): in Idle the loader writes any byte of memory, any register and any
`pc`, each at once and changing nothing else. The clause that a loader write outside Idle is REFUSED is the model's choice, log entry
3 (DEDUCED): R174 says "and only then" and names no effect. The premise of the first clause takes memory in its canonical form, log
entry 6 (DEDUCED). -/
def Obligations.LoaderWritesTakeEffectInIdleOnly : Prop :=
  (∀ (s : State) (a : Imm12) (b : Byte), s.Inv → s.status = .idle →
    ∃ t, hostExec (.writeMem a b) s = .next t ∧ t = { s with mem := t.mem } ∧
      ∀ a', t.mem.read a' = if a' = a.toNat then b else s.mem.read a') ∧
  (∀ (s : State) (i : RegIdx) (v : Byte), s.status = .idle →
    ∃ t, hostExec (.writeReg i v) s = .next t ∧ t = { s with regs := t.regs } ∧
      ∀ j, t.readReg j = if j = i then v else s.readReg j) ∧
  (∀ (s : State) (p : Word), s.status = .idle → hostExec (.writePc p) s = .next { s with pc := p }) ∧
  (∀ (c : HostCommand) (s : State), c.isLoaderWrite = true → s.status ≠ .idle → ∃ r, hostExec c s = .refused r)

/-- 70_reset_and_hazards.md section 2 (Run, R176 in part): in Idle Run sets Running and nothing else. That it is refused
elsewhere is the model's choice, log entry 3 (DEDUCED). -/
def Obligations.RunIsAcceptedInIdleOnly : Prop :=
  ∀ s : State, (s.status = .idle → hostExec .run s = .next { s with status := .running }) ∧
    (s.status ≠ .idle → hostExec .run s = .refused .runOutsideIdle)

/-- 70_reset_and_hazards.md section 2 (the host during a run): no write, no read, no reset, no Run while the Machine runs. R178
calls this an assumption on the host, not something the Machine enforces; that each command and the inspection answer a REFUSAL is the
model's choice, log entry 3 (DEDUCED). -/
def Obligations.HostHasNoMoveWhileRunning : Prop :=
  ∀ s : State, s.status = .running →
    (∀ c, ∃ r, hostExec c s = .refused r) ∧ ∃ r, inspect s = .refused r

/-- 70_reset_and_hazards.md R177: in Idle, Halted and Failed the inspector reads every item of state, the fault record when
Failed. -/
def Obligations.InspectorReadsEveryItemOutsideRunning : Prop :=
  ∀ s : State, s.status ≠ .running → ∃ v, inspect s = .next v ∧ v.regs = s.regs ∧ v.mem = s.mem ∧ v.pc = s.pc ∧
    v.sp = s.sp ∧ v.stack = s.stack ∧ v.status = s.status ∧ (s.status = .failed → v.fault = s.fault)

/-- 70_reset_and_hazards.md section 2 (the launch state, which the spec marks derived): after reset, any loader writes in any order
and Run, registers, memory and `pc` are as last written (zero where not written), the stack is empty and zero, and no fault is
recorded. -/
def Obligations.LaunchStateIsWhatTheLoaderLeft : Prop :=
  ∀ cs : List HostCommand, (∀ c ∈ cs, c.isLoaderWrite = true) →
    ∃ t, hostExecAll (cs ++ [.run]) State.reset = .next t ∧ t.status = .running ∧ t.sp.val = 0 ∧
      (∀ k, t.readSlot k = 0) ∧ t.fault = none ∧ (∀ i, t.readReg i = loadedReg cs i 0) ∧
      (∀ a, t.mem.read a = loadedByte cs a 0) ∧ t.pc = loadedPc cs 0

/-- The model's own placing of an instruction (log entry 2, DESIGN CHOICE, no rule of the spec): after `withFetchWord` the very next
step runs the instruction the table word decodes to, from every state that meets the invariant, and no other byte of memory has
changed. -/
def Obligations.PlacedWordIsTheNextInstruction : Prop :=
  ∀ (s : State) (w : Nat) (i : Instr), s.Inv → decodeTableWord 16 w = some i →
    (s.withFetchWord 16 w).Fetches i ∧ (s.withFetchWord 16 w).Inv ∧
    step (s.withFetchWord 16 w) = exec i (s.withFetchWord 16 w).advancePc ∧
    ∀ a, a ≠ (s.withFetchWord 16 w).pc.toNat → a ≠ (s.withFetchWord 16 w).pc.toNat + 1 →
      (s.withFetchWord 16 w).mem.read a = s.mem.read a
end

