-- ==== Sys2Proof/Laws/Decode.lean ====
section
/-! SUPPORT. The fields of a word as numbers, words and bytes, and the words the encoder gives, field by field. -/

namespace Sys2Proof

variable (w : Word)

theorem fieldC_toNat : (fieldC w).toNat = w.toNat / 4096 := by
  have := w.isLt
  simp [fieldC, BitVec.extractLsb'_toNat, Nat.shiftRight_eq_div_pow]
  omega

theorem fieldX_toNat : (fieldX w).toNat = w.toNat / 256 % 16 := by
  simp [fieldX, BitVec.extractLsb'_toNat, Nat.shiftRight_eq_div_pow]

theorem fieldY_toNat : (fieldY w).toNat = w.toNat / 16 % 16 := by
  simp [fieldY, BitVec.extractLsb'_toNat, Nat.shiftRight_eq_div_pow]

theorem fieldD_toNat : (fieldD w).toNat = w.toNat % 16 := by
  simp [fieldD, BitVec.extractLsb'_toNat]

theorem fieldNnn_toNat : (fieldNnn w).toNat = w.toNat % 4096 := by
  simp [fieldNnn, BitVec.extractLsb'_toNat]

@[simp] theorem regOfField_val (f : Nibble) : (regOfField f).val = f.toNat := rfl

@[simp] theorem fieldOfReg_toNat (i : RegIdx) : (fieldOfReg i).toNat = i.val := rfl

theorem wordOfBytes_toNat (hi lo : Byte) : (wordOfBytes hi lo).toNat = hi.toNat * 256 + lo.toNat := by
  have h : (wordOfBytes hi lo).toNat = hi.toNat <<< 8 ||| lo.toNat := BitVec.toNat_append hi lo
  rw [h, ← Nat.shiftLeft_add_eq_or_of_lt lo.isLt, Nat.shiftLeft_eq]

theorem highByte_toNat : (highByte w).toNat = w.toNat / 256 := by
  have := w.isLt
  simp only [highByte, BitVec.extractLsb'_toNat, Nat.shiftRight_eq_div_pow]
  omega

theorem lowByte_toNat : (lowByte w).toNat = w.toNat % 256 := by
  simp [lowByte, BitVec.extractLsb'_toNat]

/-- The two bytes of a word make the word. -/
@[simp] theorem wordOfBytes_highByte_lowByte : wordOfBytes (highByte w) (lowByte w) = w := by
  apply BitVec.eq_of_toNat_eq
  rw [wordOfBytes_toNat, highByte_toNat, lowByte_toNat]
  omega

/-- The fields `w.c` and `w.nnn` make the word (30_encoding.md R71). -/
theorem word_eq_c_nnn : w.toNat = (fieldC w).toNat * 4096 + (fieldNnn w).toNat := by
  rw [fieldC_toNat, fieldNnn_toNat]; omega

/-- The four fields make the word (30_encoding.md R71). -/
theorem word_eq_fields : w.toNat =
    (fieldC w).toNat * 4096 + (fieldX w).toNat * 256 + (fieldY w).toNat * 16 + (fieldD w).toNat := by
  rw [fieldC_toNat, fieldX_toNat, fieldY_toNat, fieldD_toNat]; omega

theorem encode_call_toNat (nnn : Imm12) : (encode (.call nnn)).toNat = 2 * 4096 + nnn.toNat := by
  have h : (encode (.call nnn)).toNat = 2 <<< 12 ||| nnn.toNat := BitVec.toNat_append (0b0010#4) nnn
  rw [h, ← Nat.shiftLeft_add_eq_or_of_lt nnn.isLt]
  rfl

theorem encode_add_toNat (x y : RegIdx) :
    (encode (.add x y)).toNat = 8 * 4096 + x.val * 256 + y.val * 16 + 4 := by
  have h : (encode (.add x y)).toNat = ((8 <<< 4 ||| x.val) <<< 4 ||| y.val) <<< 4 ||| 4 := by
    rw [encode, BitVec.toNat_append, BitVec.toNat_append, BitVec.toNat_append]; rfl
  have hx : x.val < 2 ^ 4 := x.isLt
  have hy : y.val < 2 ^ 4 := y.isLt
  rw [h, ← Nat.shiftLeft_add_eq_or_of_lt hx, ← Nat.shiftLeft_add_eq_or_of_lt hy,
    ← Nat.shiftLeft_add_eq_or_of_lt (show 4 < 2 ^ 4 by decide)]
  simp only [Nat.shiftLeft_eq]
  omega

/-- The bytes of a word that decodes to an instruction decode to it. -/
theorem decode_bytesOfWord {w : Word} {i : Instr} (h : decodeWord w = .instr i) (rest : List Byte) :
    decode (bytesOfWord w ++ rest) = .ok i rest := by
  simp [bytesOfWord, decode, h]

/-- The bytes of any other word are rejected with the word. -/
theorem decode_bytesOfWord_unimplemented {w v : Word} (h : decodeWord w = .unimplemented v) (rest : List Byte) :
    decode (bytesOfWord w ++ rest) = .rejected (.unimplementedOpcode v) := by
  simp [bytesOfWord, decode, h]

/-- The Unimplemented outcome carries the whole word (30_encoding.md R75). -/
theorem decodeWord_unimplemented {w v : Word} (h : decodeWord w = .unimplemented v) : v = w := by
  unfold decodeWord at h
  split_ifs at h
  all_goals simp_all

end Sys2Proof
end

