-- ==== Sys2Proof/Laws/State.lean ====
section
/-! SUPPORT. One lemma per field per update of the state, and what a register read gives after a register write. -/

namespace Sys2Proof.Machine

variable (s : State) (i j : RegIdx) (v : Byte) (p : Word) (c : Condition) (a w : Word) (o : Option Word)

@[simp] theorem State.writeReg_mem : (s.writeReg i v).mem = s.mem := rfl
@[simp] theorem State.writeReg_pc : (s.writeReg i v).pc = s.pc := rfl
@[simp] theorem State.writeReg_stack : (s.writeReg i v).stack = s.stack := rfl
@[simp] theorem State.writeReg_sp : (s.writeReg i v).sp = s.sp := rfl
@[simp] theorem State.writeReg_status : (s.writeReg i v).status = s.status := rfl
@[simp] theorem State.writeReg_fault : (s.writeReg i v).fault = s.fault := rfl

@[simp] theorem State.setPc_regs : (s.setPc p).regs = s.regs := rfl
@[simp] theorem State.setPc_mem : (s.setPc p).mem = s.mem := rfl
@[simp] theorem State.setPc_pc : (s.setPc p).pc = p := rfl
@[simp] theorem State.setPc_stack : (s.setPc p).stack = s.stack := rfl
@[simp] theorem State.setPc_sp : (s.setPc p).sp = s.sp := rfl
@[simp] theorem State.setPc_status : (s.setPc p).status = s.status := rfl
@[simp] theorem State.setPc_fault : (s.setPc p).fault = s.fault := rfl

@[simp] theorem State.advancePc_regs : s.advancePc.regs = s.regs := rfl
@[simp] theorem State.advancePc_mem : s.advancePc.mem = s.mem := rfl
@[simp] theorem State.advancePc_pc : s.advancePc.pc = s.pc + 2 := rfl
@[simp] theorem State.advancePc_stack : s.advancePc.stack = s.stack := rfl
@[simp] theorem State.advancePc_sp : s.advancePc.sp = s.sp := rfl
@[simp] theorem State.advancePc_status : s.advancePc.status = s.status := rfl
@[simp] theorem State.advancePc_fault : s.advancePc.fault = s.fault := rfl

@[simp] theorem State.halt_regs : s.halt.regs = s.regs := rfl
@[simp] theorem State.halt_mem : s.halt.mem = s.mem := rfl
@[simp] theorem State.halt_pc : s.halt.pc = s.pc := rfl
@[simp] theorem State.halt_stack : s.halt.stack = s.stack := rfl
@[simp] theorem State.halt_sp : s.halt.sp = s.sp := rfl
@[simp] theorem State.halt_status : s.halt.status = .halted := rfl
@[simp] theorem State.halt_fault : s.halt.fault = s.fault := rfl

@[simp] theorem State.raise_regs : (s.raise c a o).regs = s.regs := rfl
@[simp] theorem State.raise_mem : (s.raise c a o).mem = s.mem := rfl
@[simp] theorem State.raise_pc : (s.raise c a o).pc = s.pc := rfl
@[simp] theorem State.raise_stack : (s.raise c a o).stack = s.stack := rfl
@[simp] theorem State.raise_sp : (s.raise c a o).sp = s.sp := rfl
@[simp] theorem State.raise_status : (s.raise c a o).status = .failed := rfl
@[simp] theorem State.raise_fault : (s.raise c a o).fault = some ⟨c, a, o⟩ := rfl

/-- A handler records the address of its own instruction: the one `pc` was advanced from. -/
@[simp] theorem State.advancePc_instrAddr : s.advancePc.instrAddr = s.pc := by
  simp [State.instrAddr]

/-- Raising from a handler is `raise` at the address of the handler's instruction. -/
@[simp] theorem State.advancePc_raiseFrom :
    s.advancePc.raiseFrom c w = s.advancePc.raise c s.pc (some w) := by
  simp [State.raiseFrom]

/-- A register read sees exactly the writes to that register. -/
theorem State.readReg_writeReg : (s.writeReg i v).readReg j = if j = i then v else s.readReg j := by
  simp [State.readReg, State.writeReg, Vector.getElem_set, Fin.ext_iff, eq_comm]

@[simp] theorem State.readReg_setPc : (s.setPc p).readReg i = s.readReg i := rfl
@[simp] theorem State.readReg_advancePc : s.advancePc.readReg i = s.readReg i := rfl
@[simp] theorem State.readReg_halt : s.halt.readReg i = s.readReg i := rfl
@[simp] theorem State.readReg_raise : (s.raise c a o).readReg i = s.readReg i := rfl

variable (k : Fin Config.stackCapacity)

@[simp] theorem State.readSlot_writeReg : (s.writeReg i v).readSlot k = s.readSlot k := rfl
@[simp] theorem State.readSlot_setPc : (s.setPc p).readSlot k = s.readSlot k := rfl
@[simp] theorem State.readSlot_advancePc : s.advancePc.readSlot k = s.readSlot k := rfl
@[simp] theorem State.readSlot_halt : s.halt.readSlot k = s.readSlot k := rfl
@[simp] theorem State.readSlot_raise : (s.raise c a o).readSlot k = s.readSlot k := rfl

end Sys2Proof.Machine
end

