-- ==== Sys2Proof/Laws/Ops.lean ====
section
/-! SUPPORT. One lemma per shared operation that says everything it can do: push, pop, the ALU, the operand forms. -/

namespace Sys2Proof.Machine

/-- The stack pointer stays within 0 to `STACK_CAPACITY` (10_state.md R32), as a number. -/
theorem State.sp_le (s : State) : s.sp.val ≤ 16 := Nat.le_of_lt_succ s.sp.isLt

/-- A push fails exactly when the stack is full. -/
theorem State.push?_eq_none {s : State} {v : Word} : s.push? v = none ↔ s.sp.val = 16 := by
  have := s.sp_le
  unfold State.push? Config.stackCapacity at *
  split
  · simp only [reduceCtorEq, false_iff]; omega
  · simp only [true_iff]; omega

/-- A successful push writes the slot at `sp` and increments `sp`, and nothing else. -/
theorem State.push?_eq_some {s t : State} {v : Word} (h : s.push? v = some t) :
    s.sp.val < 16 ∧ t.sp.val = s.sp.val + 1 ∧
    (∀ k, t.readSlot k = if k.val = s.sp.val then v else s.readSlot k) ∧
    t.regs = s.regs ∧ t.mem = s.mem ∧ t.pc = s.pc ∧ t.status = s.status ∧ t.fault = s.fault := by
  unfold State.push? at h
  split at h
  · next hlt =>
    cases h
    refine ⟨hlt, rfl, fun k => ?_, rfl, rfl, rfl, rfl, rfl⟩
    simp [State.readSlot, Vector.getElem_set, eq_comm]
  · cases h

/-- A push on a stack that is not full gives a state. -/
theorem State.push?_of_lt {s : State} (h : s.sp.val < 16) (v : Word) : ∃ t, s.push? v = some t := by
  cases ht : s.push? v with
  | none => have := State.push?_eq_none.1 ht; omega
  | some t => exact ⟨t, rfl⟩

/-- A pop fails exactly when the stack is empty. -/
theorem State.pop?_eq_none {s : State} : s.pop? = none ↔ s.sp.val = 0 := by
  unfold State.pop?
  split
  · simp only [reduceCtorEq, false_iff]; omega
  · simp only [true_iff]; omega

/-- A successful pop gives the slot at the decremented `sp`, and changes nothing but `sp`: no slot is cleared. -/
theorem State.pop?_eq_some {s t : State} {v : Word} (h : s.pop? = some (v, t)) :
    0 < s.sp.val ∧ t.sp.val = s.sp.val - 1 ∧
    (∀ k : Fin Config.stackCapacity, k.val = s.sp.val - 1 → v = s.readSlot k) ∧ t.stack = s.stack ∧
    t.regs = s.regs ∧ t.mem = s.mem ∧ t.pc = s.pc ∧ t.status = s.status ∧ t.fault = s.fault := by
  unfold State.pop? at h
  split at h
  · next hlt =>
    cases h
    exact ⟨hlt, rfl, fun k hk => by simp [State.readSlot, hk], rfl, rfl, rfl, rfl, rfl, rfl⟩
  · cases h

/-- A pop from a stack that is not empty gives a value and a state. -/
theorem State.pop?_of_pos {s : State} (h : 0 < s.sp.val) : ∃ v t, s.pop? = some (v, t) := by
  cases ht : s.pop? with
  | none => have := State.pop?_eq_none.1 ht; omega
  | some r => exact ⟨r.1, r.2, rfl⟩

/-- What was pushed is what the next pop gives. -/
theorem State.pop?_push? {s t : State} {v : Word} (h : s.push? v = some t) :
    ∃ u, t.pop? = some (v, u) ∧ u.sp = s.sp ∧ u.pc = s.pc := by
  obtain ⟨hlt, hsp, hslot, -, -, hpc, -⟩ := State.push?_eq_some h
  obtain ⟨v', u, hu⟩ := State.pop?_of_pos (s := t) (by omega)
  obtain ⟨-, husp, hv, -, -, -, hupc, -⟩ := State.pop?_eq_some hu
  have hv' := hv ⟨s.sp.val, hlt⟩ (by simp only; omega)
  rw [hslot, if_pos rfl] at hv'
  subst hv'
  exact ⟨u, hu, Fin.ext (by omega), by rw [hupc, hpc]⟩

/-- The big-endian word at `a` as a number (20_memory.md R52). -/
theorem Memory.readWord_toNat (m : Memory) (a : Nat) :
    (m.readWord a).toNat = (m.read a).toNat * 256 + (m.read (a + 1)).toNat := wordOfBytes_toNat _ _

/-- Slots are read from the stack alone. -/
theorem State.readSlot_of_stack {s t : State} (h : s.stack = t.stack) (k : Fin Config.stackCapacity) :
    s.readSlot k = t.readSlot k := by
  rw [State.readSlot, State.readSlot, h]

theorem aluSum_le (a b : Byte) : aluSum a b ≤ 510 := by
  have := a.isLt; have := b.isLt; unfold aluSum; omega

@[simp] theorem aluResult_toNat (n : Nat) : (aluResult n).toNat = n % 256 := by simp [aluResult]

@[simp] theorem carryFlag_toNat (n : Nat) : (carryFlag n).toNat = if n > 255 then 1 else 0 := by
  unfold carryFlag; split <;> rfl

@[simp] theorem callTarget_toNat (nnn : Imm12) : (callTarget nnn).toNat = nnn.toNat := by
  have := nnn.isLt
  simp only [callTarget, BitVec.toNat_setWidth]
  omega

end Sys2Proof.Machine
end

