-- ==== Sys2Proof/Laws/Exec.lean ====
section
/-! SUPPORT. What each handler can do, said once: later proofs cite these and unfold no handler. -/

namespace Sys2Proof.Machine

theorem exec_halt (s : State) : exec .halt s = .next s.halt := rfl

/-- A Return on an empty stack raises; on any other it pops into `pc`. -/
theorem exec_ret_cases (s : State) :
    (s.sp.val = 0 ∧ exec .ret s = .next (s.raiseFrom .stackUnderflow (encode .ret))) ∨
    (0 < s.sp.val ∧ ∃ v t, s.pop? = some (v, t) ∧ exec .ret s = .next (t.setPc v)) := by
  rcases Nat.eq_zero_or_pos s.sp.val with h | h
  · exact .inl ⟨h, by simp [exec, execRet, State.pop?_eq_none.2 h]⟩
  · obtain ⟨v, t, ht⟩ := State.pop?_of_pos h
    exact .inr ⟨h, v, t, ht, by simp [exec, execRet, ht]⟩

/-- A Call on a full stack raises; on any other it pushes `pc` and goes to its target. -/
theorem exec_call_cases (nnn : Imm12) (s : State) :
    (s.sp.val = 16 ∧ exec (.call nnn) s = .next (s.raiseFrom .stackOverflow (encode (.call nnn)))) ∨
    (s.sp.val < 16 ∧ ∃ t, s.push? s.pc = some t ∧ exec (.call nnn) s = .next (t.setPc (callTarget nnn))) := by
  have := s.sp_le
  rcases Nat.lt_or_ge s.sp.val 16 with h | h
  · obtain ⟨t, ht⟩ := State.push?_of_lt h s.pc
    exact .inr ⟨h, t, ht, by simp [exec, execCall, ht]⟩
  · have h16 : s.sp.val = 16 := by omega
    exact .inl ⟨h16, by simp [exec, execCall, State.push?_eq_none.2 h16]⟩

/-- Add always completes, and writes registers only. -/
theorem exec_add (x y : RegIdx) (s : State) : exec (.add x y) s = .next
    ((s.writeReg x (aluResult (aluSum (s.readReg x) (s.readReg y)))).writeReg Config.flagReg
      (carryFlag (aluSum (s.readReg x) (s.readReg y)))) := rfl

/-- Every handler answers a next state, in every state. -/
theorem exec_next (i : Instr) (s : State) : ∃ t, exec i s = .next t := by
  cases i with
  | halt => exact ⟨_, rfl⟩
  | ret => rcases exec_ret_cases s with ⟨-, h⟩ | ⟨-, v, t, -, h⟩ <;> exact ⟨_, h⟩
  | call nnn => rcases exec_call_cases nnn s with ⟨-, h⟩ | ⟨-, t, -, h⟩ <;> exact ⟨_, h⟩
  | add x y => exact ⟨_, rfl⟩

end Sys2Proof.Machine
end

