-- ==== Sys2Proof/Laws/Memory.lean ====
section
/-! SUPPORT. Memory: read after write, every write keeps the canonical form, and canonical memories with the same bytes are
equal lists. -/

namespace Sys2Proof.Machine

/-- Addresses strictly rising: the part of the canonical form that reads and writes rest on. -/
abbrev Memory.Rising (m : Memory) : Prop := m.Pairwise (fun c d => c.1 < d.1)

/-- An address below every listed one reads as unlisted. -/
theorem Memory.read_eq_unlisted {m : Memory} {a : Nat} (h : ∀ c ∈ m, a < c.1) : m.read a = unlistedByte := by
  induction m with
  | nil => rfl
  | cons c m ih =>
    have hc := h c (by simp)
    rw [Memory.read, if_neg (by omega), ih fun d hd => h d (by simp [hd])]

theorem Memory.read_consCell {m : Memory} {a : Nat} {b : Byte} (h : ∀ c ∈ m, a < c.1) (a' : Nat) :
    (Memory.consCell a b m).read a' = if a' = a then b else m.read a' := by
  unfold Memory.consCell
  split
  · next hb =>
    split
    · next ha => rw [ha, hb, Memory.read_eq_unlisted h]
    · rfl
  · rfl

/-- Read after write: the written address reads as written, every other as before. -/
theorem Memory.read_write {m : Memory} (h : m.Rising) (a : Nat) (b : Byte) (a' : Nat) :
    (m.write a b).read a' = if a' = a then b else m.read a' := by
  induction m with
  | nil => exact Memory.read_consCell (by simp) a'
  | cons c m ih =>
    rw [Memory.Rising, List.pairwise_cons] at h
    rw [Memory.write]
    split
    · next hlt =>
      refine Memory.read_consCell ?_ a'
      rintro d hd
      rcases List.mem_cons.1 hd with rfl | hd
      · exact hlt
      · exact hlt.trans (h.1 d hd)
    · split
      · next heq =>
        rw [Memory.read_consCell (heq ▸ h.1) a', Memory.read]
        by_cases ha : a' = a <;> simp [ha, ← heq]
      · next hne =>
        rw [Memory.read, Memory.read, ih h.2]
        by_cases ha : a' = c.1
        · simp [ha, Ne.symm hne]
        · simp [ha]

theorem Memory.consCell_wf {m : Memory} {a : Nat} {b : Byte} (hm : m.wf) (ha : a < Config.memSize)
    (h : ∀ c ∈ m, a < c.1) : (Memory.consCell a b m).wf := by
  unfold Memory.consCell
  split
  · exact hm
  · next hb =>
    refine ⟨List.pairwise_cons.2 ⟨h, hm.1⟩, fun c hc => ?_⟩
    rcases List.mem_cons.1 hc with rfl | hc
    · exact ⟨ha, hb⟩
    · exact hm.2 c hc

/-- The cells of a written memory are the written one and old ones. -/
theorem Memory.mem_write {m : Memory} {a : Nat} {b : Byte} {c : Host.Cell} (hc : c ∈ m.write a b) :
    c = (a, b) ∨ c ∈ m := by
  induction m with
  | nil =>
    rw [Memory.write, Memory.consCell] at hc
    split at hc <;> simp_all
  | cons d m ih =>
    rw [Memory.write, Memory.consCell, Memory.consCell] at hc
    split_ifs at hc <;> simp only [List.mem_cons] at hc ⊢ <;> tauto

/-- A write inside the address space keeps the canonical form. -/
theorem Memory.write_wf {m : Memory} (hm : m.wf) {a : Nat} (ha : a < Config.memSize) (b : Byte) :
    (m.write a b).wf := by
  induction m with
  | nil => exact Memory.consCell_wf hm ha (by simp)
  | cons c m ih =>
    have hp := List.pairwise_cons.1 hm.1
    have hm' : Memory.wf m := ⟨hp.2, fun d hd => hm.2 d (by simp [hd])⟩
    rw [Memory.write]
    split
    · next hlt =>
      refine Memory.consCell_wf hm ha fun d hd => ?_
      rcases List.mem_cons.1 hd with rfl | hd
      · exact hlt
      · exact hlt.trans (hp.1 d hd)
    · split
      · next heq => exact Memory.consCell_wf hm' ha (heq ▸ hp.1)
      · refine ⟨List.pairwise_cons.2 ⟨fun d hd => ?_, (ih hm').1⟩, fun d hd => ?_⟩
        · rcases Memory.mem_write hd with rfl | hd
          · simp only; omega
          · exact hp.1 d hd
        · rcases List.mem_cons.1 hd with rfl | hd
          · exact hm.2 d (by simp)
          · exact (ih hm').2 d hd

/-- Writing a word inside the address space keeps the canonical form. -/
theorem Memory.writeWord_wf {m : Memory} (hm : m.wf) {a : Nat} (ha : a + 1 < Config.memSize) (w : Word) :
    (m.writeWord a w).wf :=
  Memory.write_wf (Memory.write_wf hm (by omega) _) ha _

/-- Reading after a word is written. -/
theorem Memory.read_writeWord {m : Memory} (hm : m.wf) {a : Nat} (ha : a + 1 < Config.memSize) (w : Word) (a' : Nat) :
    (m.writeWord a w).read a' = if a' = a + 1 then lowByte w else if a' = a then highByte w else m.read a' := by
  rw [Memory.writeWord, Memory.read_write (Memory.write_wf hm (by omega) _).1, Memory.read_write hm.1]

/-- Reset memory is canonical. -/
theorem Memory.reset_wf : State.reset.mem.wf := by decide

/-- Two canonical memories in which every address reads the same are the same list. -/
theorem Memory.ext_of_wf {m n : Memory} (hm : m.wf) (hn : n.wf) (h : ∀ a, m.read a = n.read a) : m = n := by
  induction m generalizing n with
  | nil =>
    cases n with
    | nil => rfl
    | cons d n =>
      have := h d.1
      simp only [Memory.read, if_true] at this
      exact absurd this.symm (hn.2 d (by simp)).2
  | cons c m ih =>
    have hp := List.pairwise_cons.1 hm.1
    have hm' : Memory.wf m := ⟨hp.2, fun e he => hm.2 e (by simp [he])⟩
    cases n with
    | nil =>
      have := h c.1
      simp only [Memory.read, if_true] at this
      exact absurd this (hm.2 c (by simp)).2
    | cons d n =>
      have hq := List.pairwise_cons.1 hn.1
      have hn' : Memory.wf n := ⟨hq.2, fun e he => hn.2 e (by simp [he])⟩
      have hkey : c.1 = d.1 := by
        rcases Nat.lt_trichotomy c.1 d.1 with hlt | heq | hgt
        · have := h c.1
          rw [Memory.read_eq_unlisted (m := d :: n) (by
            intro e he
            rcases List.mem_cons.1 he with rfl | he
            · exact hlt
            · exact hlt.trans (hq.1 e he))] at this
          simp only [Memory.read, if_true] at this
          exact absurd this (hm.2 c (by simp)).2
        · exact heq
        · have := h d.1
          rw [Memory.read_eq_unlisted (m := c :: m) (by
            intro e he
            rcases List.mem_cons.1 he with rfl | he
            · exact hgt
            · exact hgt.trans (hp.1 e he))] at this
          simp only [Memory.read, if_true] at this
          exact absurd this.symm (hn.2 d (by simp)).2
      have hval : c.2 = d.2 := by
        have := h c.1
        simpa [Memory.read, ← hkey] using this
      have htail : m = n := by
        refine ih hm' hn' fun a => ?_
        by_cases ha : a = c.1
        · rw [ha, Memory.read_eq_unlisted hp.1, hkey, Memory.read_eq_unlisted hq.1]
        · have := h a
          simpa [Memory.read, ha, hkey ▸ ha] using this
      rw [htail, Prod.ext hkey hval]

end Sys2Proof.Machine
end

