-- ==== Sys2Proof/Laws/PerInstr.lean ====
section
/-! SUPPORT. The fixed bits of every instruction's word are those of its row of the opcode table (30_encoding.md R76). -/

namespace Sys2Proof.Laws

/-- The `mask` column of an instruction's row. -/
def rowMask : Instr → Word
  | .halt => 0xFFFF
  | .ret => 0xFFFF
  | .call _ => 0xF000
  | .add _ _ => 0xF00F

/-- The `match` column of an instruction's row. -/
def rowMatch : Instr → Word
  | .halt => 0x0000
  | .ret => 0x00EE
  | .call _ => 0x2000
  | .add _ _ => 0x8004

/-- The encoded word selects the instruction's own row: `(w AND mask) == match`. -/
def FixedBits.Statement (i : Instr) : Prop := encode i &&& rowMask i = rowMatch i

theorem FixedBits.halt : FixedBits.Statement .halt := rfl

theorem FixedBits.ret : FixedBits.Statement .ret := rfl

theorem FixedBits.call (nnn : Imm12) : FixedBits.Statement (.call nnn) := by
  have h : ∀ i, (encode (.call nnn)).getLsbD i = if i < 12 then nnn.getLsbD i else (0b0010#4).getLsbD (i - 12) :=
    fun _ => BitVec.getLsbD_append
  refine BitVec.eq_of_getLsbD_eq fun i hi => ?_
  rw [BitVec.getLsbD_and, h]
  interval_cases i <;> simp [rowMask, rowMatch]

theorem FixedBits.add (x y : RegIdx) : FixedBits.Statement (.add x y) := by
  revert x y
  unfold FixedBits.Statement
  decide

end Sys2Proof.Laws
end

