-- ==== Sys2Proof/Laws/Step.lean ====
section
/-! SUPPORT. What a step can do, said once, and the run loop one step at a time. -/

namespace Sys2Proof.Machine

theorem State.fetch?_of_le {s : State} (h : s.pc.toNat ≤ 4094) : s.fetch? = some (s.mem.readWord s.pc.toNat) := by
  rw [State.fetch?, if_neg (by simp only [Config.memSize]; omega)]

theorem State.fetch?_of_ge {s : State} (h : 4095 ≤ s.pc.toNat) : s.fetch? = none := by
  rw [State.fetch?, if_pos (by simp only [Config.memSize]; omega)]

theorem dispatch_unimplemented (w : Word) (s : State) : dispatch (.unimplemented w) s.advancePc =
    .next (s.advancePc.raise .unimplementedOpcode s.pc (some w)) := by
  rw [← State.advancePc_raiseFrom]; rfl

theorem step_running {s : State} (h : s.status = .running) : step s = cycle s := by
  rw [step, h]

/-- A running Machine whose fetch is out of bounds raises, with `pc` not advanced. -/
theorem step_outOfBounds {s : State} (h : s.status = .running) (hpc : 4095 ≤ s.pc.toNat) :
    step s = .next (s.raise .outOfBoundsFetch s.pc none) := by
  rw [step_running h, cycle, State.fetch?_of_ge hpc]

/-- A running Machine whose fetch is in bounds dispatches the word at `pc`, with `pc` already advanced. -/
theorem step_inBounds {s : State} (h : s.status = .running) (hpc : s.pc.toNat ≤ 4094) :
    step s = dispatch (decodeWord (s.mem.readWord s.pc.toNat)) s.advancePc := by
  rw [step_running h, cycle, State.fetch?_of_le hpc]

/-- Everything a step that answers a next state can have done. -/
theorem step_cases {s t : State} (h : step s = .next t) : s.status = .running ∧
    ((4095 ≤ s.pc.toNat ∧ t = s.raise .outOfBoundsFetch s.pc none) ∨
     (s.pc.toNat ≤ 4094 ∧
      ((∃ i, decodeWord (s.mem.readWord s.pc.toNat) = .instr i ∧ exec i s.advancePc = .next t) ∨
       (decodeWord (s.mem.readWord s.pc.toNat) = .unimplemented (s.mem.readWord s.pc.toNat) ∧
        t = s.advancePc.raise .unimplementedOpcode s.pc (some (s.mem.readWord s.pc.toNat)))))) := by
  have hr : s.status = .running := by
    unfold step at h
    split at h <;> first | assumption | cases h
  refine ⟨hr, ?_⟩
  rcases Nat.lt_or_ge s.pc.toNat 4095 with hpc | hpc
  · have hpc : s.pc.toNat ≤ 4094 := by omega
    rw [step_inBounds hr hpc] at h
    refine .inr ⟨hpc, ?_⟩
    cases hd : decodeWord (s.mem.readWord s.pc.toNat) with
    | instr i => rw [hd] at h; exact .inl ⟨i, rfl, h⟩
    | unimplemented v =>
      rw [hd, dispatch_unimplemented] at h
      obtain rfl := decodeWord_unimplemented hd
      exact .inr ⟨rfl, by cases h; rfl⟩
  · rw [step_outOfBounds hr hpc] at h
    exact .inl ⟨hpc, by cases h; rfl⟩

/-- Everything a step that answers a next state can have done, instruction by instruction, in terms of the state before it. -/
theorem step_cases_full {s t : State} (h : step s = .next t) : s.status = .running ∧
    ((4095 ≤ s.pc.toNat ∧ t = s.raise .outOfBoundsFetch s.pc none) ∨
     (s.pc.toNat ≤ 4094 ∧ ∃ w, w = s.mem.readWord s.pc.toNat ∧
      ((decodeWord w = .unimplemented w ∧ t = s.advancePc.raise .unimplementedOpcode s.pc (some w)) ∨
       (decodeWord w = .instr .halt ∧ t = s.advancePc.halt) ∨
       (decodeWord w = .instr .ret ∧ s.sp.val = 0 ∧
        t = s.advancePc.raise .stackUnderflow s.pc (some (encode .ret))) ∨
       (decodeWord w = .instr .ret ∧ 0 < s.sp.val ∧ t.regs = s.regs ∧ t.mem = s.mem ∧ t.stack = s.stack ∧
        t.sp.val = s.sp.val - 1 ∧ t.status = .running ∧ t.fault = s.fault ∧
        ∀ k : Fin Config.stackCapacity, k.val = s.sp.val - 1 → t.pc = s.readSlot k) ∨
       (∃ nnn, decodeWord w = .instr (.call nnn) ∧ s.sp.val = 16 ∧
        t = s.advancePc.raise .stackOverflow s.pc (some (encode (.call nnn)))) ∨
       (∃ nnn, decodeWord w = .instr (.call nnn) ∧ s.sp.val < 16 ∧ t.regs = s.regs ∧ t.mem = s.mem ∧
        t.sp.val = s.sp.val + 1 ∧ t.status = .running ∧ t.fault = s.fault ∧ t.pc = callTarget nnn ∧
        ∀ k, t.readSlot k = if k.val = s.sp.val then s.pc + 2 else s.readSlot k) ∨
       (∃ x y, decodeWord w = .instr (.add x y) ∧ exec (.add x y) s.advancePc = .next t)))) := by
  obtain ⟨hr, h⟩ := step_cases h
  refine ⟨hr, ?_⟩
  rcases h with h | ⟨hp, ⟨i, hd, he⟩ | ⟨hd, ht⟩⟩
  · exact .inl h
  · refine .inr ⟨hp, _, rfl, .inr ?_⟩
    cases i with
    | halt => cases he; exact .inl ⟨hd, rfl⟩
    | ret =>
      refine .inr ?_
      rcases exec_ret_cases s.advancePc with ⟨h0, h'⟩ | ⟨h0, v, u, hu, h'⟩ <;> rw [h'] at he <;> cases he
      · exact .inl ⟨hd, h0, State.advancePc_raiseFrom ..⟩
      · obtain ⟨-, hsp, hv, hstack, hregs, hmem, -, hstatus, hfault⟩ := State.pop?_eq_some hu
        exact .inr (.inl ⟨hd, h0, hregs, hmem, hstack, hsp, by simpa [hstatus] using hr, hfault, hv⟩)
    | call nnn =>
      refine .inr (.inr (.inr ?_))
      rcases exec_call_cases nnn s.advancePc with ⟨h0, h'⟩ | ⟨h0, u, hu, h'⟩ <;> rw [h'] at he <;> cases he
      · exact .inl ⟨nnn, hd, h0, State.advancePc_raiseFrom ..⟩
      · obtain ⟨-, hsp, hslot, hregs, hmem, -, hstatus, hfault⟩ := State.push?_eq_some hu
        exact .inr (.inl ⟨nnn, hd, h0, hregs, hmem, hsp, by simpa [hstatus] using hr, hfault, rfl, hslot⟩)
    | add x y => exact .inr (.inr (.inr (.inr (.inr ⟨x, y, hd, he⟩))))
  · exact .inr ⟨hp, _, rfl, .inl ⟨hd, ht⟩⟩

/-- A running Machine always takes a step. -/
theorem step_next_of_running {s : State} (h : s.status = .running) : ∃ t, step s = .next t := by
  rcases Nat.lt_or_ge s.pc.toNat 4095 with hpc | hpc
  · rw [step_inBounds h (by omega)]
    cases decodeWord (s.mem.readWord s.pc.toNat) with
    | instr i => exact exec_next i _
    | unimplemented w => exact ⟨_, dispatch_unimplemented w s⟩
  · exact ⟨_, step_outOfBounds h hpc⟩

/-- The advance of `pc` by 2 does not wrap after a fetch in bounds (40_step_cycle.md R93). -/
theorem State.pc_add_two_toNat {s : State} (h : s.pc.toNat ≤ 4094) : (s.pc + 2).toNat = s.pc.toNat + 2 := by
  rw [BitVec.toNat_add, show (2 : Word).toNat = 2 from rfl]
  omega

theorem State.fetch?_eq_some {s : State} {w : Word} (h : s.fetch? = some w) :
    s.pc.toNat ≤ 4094 ∧ w = s.mem.readWord s.pc.toNat := by
  rcases Nat.lt_or_ge s.pc.toNat 4095 with hp | hp
  · rw [State.fetch?_of_le (by omega)] at h
    exact ⟨by omega, (Option.some.inj h).symm⟩
  · rw [State.fetch?_of_ge hp] at h
    cases h

theorem State.decoded?_of_le {s : State} (h : s.pc.toNat ≤ 4094) :
    s.decoded? = some (decodeWord (s.mem.readWord s.pc.toNat)) := by
  rw [State.decoded?, State.fetch?_of_le h]; rfl

theorem State.decoded?_of_ge {s : State} (h : 4095 ≤ s.pc.toNat) : s.decoded? = none := by
  rw [State.decoded?, State.fetch?_of_ge h]; rfl

/-- What it takes to fetch the instruction `i`, without the fetch. -/
theorem State.fetches_iff {s : State} {i : Instr} : s.Fetches i ↔
    s.status = .running ∧ s.pc.toNat ≤ 4094 ∧ decodeWord (s.mem.readWord s.pc.toNat) = .instr i := by
  rcases Nat.lt_or_ge s.pc.toNat 4095 with hp | hp
  · have hp : s.pc.toNat ≤ 4094 := by omega
    simp [State.Fetches, State.decoded?_of_le hp, hp]
  · have hp' : ¬s.pc.toNat ≤ 4094 := by omega
    simp [State.Fetches, State.decoded?_of_ge hp, hp']

/-- A step that fetches `i` is the handler of `i`, run with `pc` advanced. -/
theorem step_of_fetches {s : State} {i : Instr} (h : s.Fetches i) : step s = exec i s.advancePc := by
  obtain ⟨hr, hp, hd⟩ := State.fetches_iff.1 h
  rw [step_inBounds hr hp, hd]; rfl

theorem runFor_succ_of_step {s t : State} (h : step s = .next t) (n : Nat) : runFor (n + 1) s = runFor n t := by
  rw [runFor, h]

/-- A Machine that is not running stays as it is. -/
theorem runFor_of_not_running {s : State} (h : s.status ≠ .running) (n : Nat) : runFor n s = s := by
  cases n with
  | zero => rfl
  | succ n =>
    rw [runFor, step]
    cases hs : s.status <;> simp_all

/-- What every step keeps, a run keeps. -/
theorem runFor_induct {P : State → Prop} (hstep : ∀ s t, P s → step s = .next t → P t) {s : State} (h : P s) (n : Nat) :
    P (runFor n s) := by
  induction n generalizing s with
  | zero => exact h
  | succ n ih =>
    rw [runFor]
    split
    · next t ht => exact ih (hstep s t h ht)
    · exact h
    · exact h

/-- A run of `n + m` steps is a run of `m` steps after one of `n`. -/
theorem runFor_add (n m : Nat) (s : State) : runFor (n + m) s = runFor m (runFor n s) := by
  induction n generalizing s with
  | zero => rw [Nat.zero_add]; rfl
  | succ n ih =>
    by_cases h : s.status = .running
    · obtain ⟨t, ht⟩ := step_next_of_running h
      rw [Nat.add_right_comm, runFor_succ_of_step ht, runFor_succ_of_step ht, ih]
    · rw [runFor_of_not_running h, runFor_of_not_running h, runFor_of_not_running h]

/-- One more step at the end of a run. -/
theorem runFor_succ' (n : Nat) (s : State) : runFor (n + 1) s = runFor 1 (runFor n s) :=
  runFor_add n 1 s

/-- The host's own iteration of a step, one step at a time. -/
theorem run_succ_of_step (M : Host.Core) (n : Nat) {s t : M.State} (h : M.step s = .next t) :
    M.run (n + 1) s = M.run n t := by
  rw [Host.Core.run, h]

/-- The host's iteration gives no state beyond a stop. -/
theorem run_succ_ne_next (M : Host.Core) (n : Nat) {s t : M.State} (h : ∀ u, M.step s ≠ .next u) :
    M.run (n + 1) s ≠ .next t := by
  rw [Host.Core.run]
  cases hs : M.step s with
  | next u => exact absurd hs (h u)
  | fault r => simp
  | refused r => simp

end Sys2Proof.Machine
end

