-- ==== Sys2Proof/Tests/Slice0.lean ====
section
/-! SUPPORT. The model's own tests. Expected values come from the tables of 95_test_vectors.md (the row is named beside each
test) or from the rule cited; the witnesses at the end show that the hypotheses of each statement can be met. -/

namespace Sys2Proof.Tests

open Sys2Proof.Machine

/-- The next state of a result, none where it stopped. -/
def next? : Result → Option State
  | .next t => some t
  | .fault _ => none
  | .refused _ => none

/-- From reset: `pc` set, the word `w` placed there, running. -/
def at_ (pc : Word) (w : Word) : State := { State.reset with pc := pc }.placeWord w

/-- One step, then a view of the state it gives. -/
def after {α : Type} (s : State) (f : State → α) : Option α := (next? (step s)).map f

/-- The same state with `stack[k] = v` and the stack pointer `sp`. -/
def withStack (s : State) (k : Fin 16) (v : Word) (sp : Fin 17) : State :=
  { s with stack := s.stack.set k.val v, sp := sp }

/-! ### Well-formedness: an ill-formed line for each check (30_encoding.md R81) -/

theorem test_call_target_out_of_range : (AsmLine.call 4096).wellFormed = false := by decide
theorem test_add_destination_out_of_range : (AsmLine.add 16 0).wellFormed = false := by decide
theorem test_add_source_out_of_range : (AsmLine.add 0 16).wellFormed = false := by decide
theorem test_data_word_out_of_range : (AsmLine.word 65536).wellFormed = false := by decide
theorem test_ill_formed_lines_place_nothing :
    (AsmLine.call 4096).bytes? = none ∧ (AsmLine.add 16 0).bytes? = none ∧ (AsmLine.add 0 16).bytes? = none ∧
    (AsmLine.word 65536).bytes? = none := by decide
theorem test_well_formed_limits : (AsmLine.call 4095).wellFormed = true ∧ (AsmLine.add 15 15).wellFormed = true ∧
    (AsmLine.word 65535).wellFormed = true := by decide

/-! ### Decoding: words written out bit by bit from 30_encoding.md R76 (95_test_vectors.md section 2) -/

theorem test_decode_halt : decode [0b00000000, 0b00000000] = .ok .halt [] := by decide
theorem test_decode_ret : decode [0b00000000, 0b11101110] = .ok .ret [] := by decide
theorem test_decode_call : decode [0b00100001, 0b00000000] = .ok (.call 0x100) [] := by decide
theorem test_decode_add : decode [0b10001010, 0b10110100] = .ok (.add 10 11) [] := by decide
theorem test_decode_call_any_low_bits :
    decodeWord 0x20EE = .instr (.call 0x0EE) ∧ decodeWord 0x2FFF = .instr (.call 4095) := by decide
theorem test_decode_near_misses :
    decodeWord 0x00E0 = .unimplemented 0x00E0 ∧ decodeWord 0x00EF = .unimplemented 0x00EF ∧
    decodeWord 0x01EE = .unimplemented 0x01EE ∧ decodeWord 0x0001 = .unimplemented 0x0001 ∧
    decodeWord 0x8015 = .unimplemented 0x8015 ∧ decodeWord 0x7014 = .unimplemented 0x7014 ∧
    decodeWord 0xEE00 = .unimplemented 0xEE00 := by decide
theorem test_decode_one_byte : decode [0x80] = .rejected .tooFewBytes := by decide
theorem test_decode_rejects_by_word : decode [0x12, 0x34] = .rejected (.unimplementedOpcode 0x1234) := by decide
/-- The bytes 30_encoding.md R82 lists. -/
theorem test_encode_bytes : encodeBytes (.add 0 1) = [0x80, 0x14] ∧ encodeBytes (.call 0x100) = [0x21, 0x00] ∧
    encodeBytes .ret = [0x00, 0xEE] ∧ encodeBytes .halt = [0x00, 0x00] := by decide
theorem test_table_word : decodeTableWord 16 0x8014 = some (.add 0 1) ∧ decodeTableWord 16 0x1234 = none := by decide

/-! ### One step -/

/-- S4, P6c. -/
theorem test_halt_from_reset : after { State.reset with status := .running } (fun t => (t.status, t.pc, t.regs)) =
    some (.halted, 2, State.reset.regs) := by decide
/-- F1. -/
theorem test_halt_at_4094 : after (at_ 4094 0x0000) (fun t => (t.status, t.pc)) = some (.halted, 4096) := by decide
/-- A8 and A9: the flag needs a sum above 255. -/
theorem test_add_boundary :
    after (((at_ 0 0x8014).writeReg 0 200).writeReg 1 55) (fun t => (t.readReg 0, t.readReg 1, t.readReg 15, t.pc)) =
      some (255, 55, 0, 2) ∧
    after (((at_ 0 0x8014).writeReg 0 200).writeReg 1 56) (fun t => (t.readReg 0, t.readReg 1, t.readReg 15, t.pc)) =
      some (0, 56, 1, 2) := by decide
/-- A17, A19, A20: register 15 as source, as destination, as both. -/
theorem test_add_flags_register :
    after (((at_ 0 0x82F4).writeReg 2 0xFF).writeReg 15 0xFF) (fun t => (t.readReg 2, t.readReg 15)) = some (0xFE, 1) ∧
    after (((at_ 0 0x8F04).writeReg 15 200).writeReg 0 100) (fun t => (t.readReg 15, t.readReg 0)) = some (1, 100) ∧
    after ((at_ 0 0x8FF4).writeReg 15 0x80) (fun t => t.readReg 15) = some 1 := by decide
/-- K2, K4: the last slot, and a return address above memory. -/
theorem test_call_pushes :
    after { at_ 0x0FE 0x2FFF with sp := 15 } (fun t => (t.readSlot 15, t.sp.val, t.pc)) = some (0x100, 16, 4095) ∧
    after (at_ 4094 0x2000) (fun t => (t.readSlot 0, t.sp.val, t.pc)) = some (4096, 1, 0) := by decide
/-- K3. -/
theorem test_call_overflow : after { at_ 0x10 0x2ABC with sp := 16 } (fun t => (t.status, t.fault, t.pc, t.sp.val)) =
    some (.failed, some ⟨.stackOverflow, 0x10, some 0x2ABC⟩, 0x12, 16) := by decide
/-- K5, K6: the slot is not cleared. -/
theorem test_ret_pops :
    after (withStack (at_ 0x104 0x00EE) 0 2 1) (fun t => (t.sp.val, t.pc, t.readSlot 0)) = some (0, 2, 2) ∧
    after (withStack (at_ 0x104 0x00EE) 15 0x0F2 16) (fun t => (t.sp.val, t.pc)) = some (15, 0x0F2) := by decide
/-- K7. -/
theorem test_ret_underflow : after (at_ 0 0x00EE) (fun t => (t.status, t.fault, t.pc, t.sp.val)) =
    some (.failed, some ⟨.stackUnderflow, 0, some 0x00EE⟩, 2, 0) := by decide
/-- F7: big-endian, and an unimplemented word. -/
theorem test_unimplemented : after (at_ 0 0x1480) (fun t => (t.status, t.fault, t.pc)) =
    some (.failed, some ⟨.unimplementedOpcode, 0, some 0x1480⟩, 2) := by decide
/-- F3, F5. -/
theorem test_out_of_bounds_fetch :
    after { State.reset with pc := 4095, status := .running } (fun t => (t.status, t.fault, t.pc)) =
      some (.failed, some ⟨.outOfBoundsFetch, 4095, none⟩, 4095) ∧
    after { State.reset with pc := 0xFFFF, status := .running } (fun t => (t.status, t.fault, t.pc)) =
      some (.failed, some ⟨.outOfBoundsFetch, 0xFFFF, none⟩, 0xFFFF) := by decide
/-- F6: an odd fetch address. -/
theorem test_odd_fetch : after (((at_ 1 0x8014).writeReg 0 1).writeReg 1 2) (fun t => (t.readReg 0, t.pc)) =
    some (3, 3) := by decide
/-- Writing the byte an unlisted address reads as removes the entry. -/
theorem test_memory_canonical : Memory.write (Memory.write [] 7 3) 7 0 = [] ∧
    Memory.write (Memory.write [] 7 3) 2 1 = [(2, 1), (7, 3)] := by decide

/-! ### Witnesses: the hypotheses of each statement are met together -/

/-- `ADD r0, r1` at 0 meets the invariant of the Machine. -/
theorem witness_inv : (at_ 0 0x8014).Inv :=
  ⟨by decide, by decide, by decide, by decide, fun r h => by cases h⟩

/-- A full stack: every slot holds the return address 2. -/
def fullStack (s : State) : State := { s with stack := Vector.replicate 16 2, sp := 16 }

/-- A word of an unused class is the encoding of no instruction. -/
theorem encode_ne_0x1234 (i : Instr) : encode i ≠ 0x1234 := by
  intro h
  have h : (encode i).toNat = 0x1234 := by rw [h]; rfl
  cases i with
  | halt => exact absurd h (by decide)
  | ret => exact absurd h (by decide)
  | call nnn => rw [encode_call_toNat] at h; omega
  | add x y => rw [encode_add_toNat] at h; omega

theorem witness_DecodeIsTheFiveWayChoice : (0x0000#16).toNat / 4096 = 0 ∧
    ((0x00EE#16).toNat / 4096 = 0 ∧ (0x00EE#16).toNat / 16 % 16 = 0xE ∧ (0x00EE#16).toNat % 16 = 0xE) ∧
    (0x2FFF#16).toNat / 4096 = 2 ∧ ((0x8FF4#16).toNat / 4096 = 8 ∧ (0x8FF4#16).toNat % 16 = 4) ∧
    (0xFFFF#16).toNat / 4096 = 15 := by decide

theorem witness_ListingLines : (AsmLine.add 15 0).toInstr? = some (.add 15 0) ∧
    (AsmLine.call 4095).toInstr? = some (.call 4095) := by decide

theorem witness_StepRunsTheDecodedWord :
    ((at_ 4094 0x8014).status = .running ∧ (at_ 4094 0x8014).pc.toNat ≤ 4094 ∧
      (0x8014#16).toNat = ((at_ 4094 0x8014).mem.read 4094).toNat * 256 + ((at_ 4094 0x8014).mem.read 4095).toNat ∧
      decodeWord 0x8014 = .instr (.add 0 1)) ∧
    ((at_ 1 0x1234).status = .running ∧ (at_ 1 0x1234).pc.toNat ≤ 4094 ∧
      (0x1234#16).toNat = ((at_ 1 0x1234).mem.read 1).toNat * 256 + ((at_ 1 0x1234).mem.read 2).toNat ∧
      decodeWord 0x1234 = .unimplemented 0x1234) := by decide

theorem witness_FetchIsOutOfBounds :
    (let s : State := { State.reset with pc := 4095, status := .running }; s.status = .running ∧ 4095 ≤ s.pc.toNat) ∧
    (let s : State := { State.reset with pc := 4094, status := .running }; s.status = .running ∧ s.pc.toNat ≤ 4094) := by
  decide

/-- The failing side of the clause about a fetch in bounds. -/
theorem witness_FetchInBoundsFails : after (at_ 4094 0x1234) (fun t => t.status) = some .failed := by decide

theorem witness_EveryOtherWord : (at_ 0 0x1234).status = .running ∧ (at_ 0 0x1234).fetch? = some 0x1234 ∧
    ∀ i, encode i ≠ 0x1234 := ⟨rfl, by decide, encode_ne_0x1234⟩

theorem witness_StepRefinesThePseudocode : (at_ 0 0x8014).status = .running := rfl

theorem witness_HaltEndsTheRun : (at_ 4094 0x0000).Fetches .halt := by decide

theorem witness_CallPushes :
    ((at_ 0 0x2FFF).Fetches (.call 4095) ∧ { at_ 0 0x2FFF with sp := 15 }.sp.val < 16) ∧
    ({ at_ 0 0x2FFF with sp := 15 }.Fetches (.call 4095)) ∧
    ((fullStack (at_ 0 0x2000)).Fetches (.call 0) ∧ (fullStack (at_ 0 0x2000)).sp.val = 16) := by decide

theorem witness_ReturnPops :
    ((withStack (at_ 0 0x00EE) 0 2 1).Fetches .ret ∧ 0 < (withStack (at_ 0 0x00EE) 0 2 1).sp.val) ∧
    ((fullStack (at_ 0 0x00EE)).Fetches .ret ∧ 0 < (fullStack (at_ 0 0x00EE)).sp.val) ∧
    ((at_ 0 0x00EE).Fetches .ret ∧ (at_ 0 0x00EE).sp.val = 0) := by decide

theorem witness_StackBlock :
    ((fullStack (at_ 0 0x2000)).Fetches (.call 0) ∧ (next? (step (fullStack (at_ 0 0x2000)))).isSome = true ∧
      (fullStack (at_ 0 0x2000)).stackState = .full) ∧
    ({ at_ 0 0x2000 with sp := 15 }.Fetches (.call 0) ∧ (next? (step { at_ 0 0x2000 with sp := 15 })).isSome = true ∧
      { at_ 0 0x2000 with sp := 15 }.stackState = .partly) ∧
    ((at_ 0 0x00EE).Fetches .ret ∧ (next? (step (at_ 0 0x00EE))).isSome = true ∧ (at_ 0 0x00EE).stackState = .empty) ∧
    ((fullStack (at_ 0 0x00EE)).Fetches .ret ∧ (next? (step (fullStack (at_ 0 0x00EE)))).isSome = true ∧
      (fullStack (at_ 0 0x00EE)).stackState ≠ .empty) := by decide

theorem witness_AddWrites : (at_ 0 0x8FF4).Fetches (.add 15 15) ∧ (at_ 0 0x8014).Fetches (.add 0 1) := by decide

theorem witness_AddFlagAndResult : (14 : RegIdx) ≠ 15 := by decide

theorem witness_TheFlagIsFresh : (next? (exec (.add 0 1) (at_ 0 0x8014))).isSome = true ∧
    ((at_ 0 0x8014).writeReg 15 0xAB).readReg 0 = (at_ 0 0x8014).readReg 0 ∧
    ((at_ 0 0x8014).writeReg 15 0xAB).readReg 1 = (at_ 0 0x8014).readReg 1 ∧ State.reset.status = .idle := by decide

theorem witness_AddCommutes : (0 : RegIdx) ≠ 15 ∧ (1 : RegIdx) ≠ 15 ∧ (0 : RegIdx) ≠ 1 := by decide

theorem witness_OnlyAddUsesRegisters :
    ((next? (step (at_ 0 0x8014))).isSome = true ∧ (at_ 0 0x8014).decoded? = some (.instr (.add 0 1)) ∧
      (2 : RegIdx) ≠ 0 ∧ (2 : RegIdx) ≠ 15) ∧
    ((next? (step (at_ 0 0x2100))).isSome = true ∧ ∀ x y : RegIdx, (at_ 0 0x2100).decoded? ≠ some (.instr (.add x y))) ∧
    State.reset.status = .idle ∧ { State.reset with status := .halted }.Ended := by decide

theorem witness_InstructionsChangeNothingElse :
    (next? (exec .halt (at_ 0 0))).isSome = true ∧ (next? (exec .ret (fullStack (at_ 0 0)))).isSome = true ∧
    ((next? (exec (.call 0) (at_ 0 0))).map fun t => t.status) = some .running ∧
    ((next? (exec (.add 0 1) (at_ 0 0))).map fun t => t.status) = some .running := by decide

theorem witness_FatalConditionsArePrecise :
    after { State.reset with pc := 4095, status := .running } (fun t => t.status) = some .failed ∧
    after (fullStack (at_ 4094 0x2000)) (fun t => t.status) = some .failed := by decide

theorem witness_ConditionsAreRaised :
    (at_ 0 0x1234).dueFault? = some ⟨.unimplementedOpcode, 0, some 0x1234⟩ ∧
    (fullStack (at_ 0 0x2FFF)).dueFault? = some ⟨.stackOverflow, 0, some 0x2FFF⟩ ∧
    (at_ 4094 0x00EE).dueFault? = some ⟨.stackUnderflow, 4094, some 0x00EE⟩ ∧
    { State.reset with pc := 4095, status := .running }.dueFault? = some ⟨.outOfBoundsFetch, 4095, none⟩ ∧
    (at_ 0 0x8014).status = .running ∧ (at_ 0 0x8014).dueFault? = none := by decide

theorem witness_EndedMachine : { State.reset with status := .halted }.Ended ∧
    { State.reset with status := .failed, fault := some ⟨.outOfBoundsFetch, 0, none⟩ }.Ended ∧
    HostCommand.run ≠ .reset := by decide

theorem witness_StatusChanges : (next? (step (at_ 0 0x8014))).isSome = true ∧
    (next? (hostExec .run State.reset)).isSome = true ∧ (next? (hostExec .reset State.reset)).isSome = true ∧
    (next? (hostExec (.writePc 4095) State.reset)).isSome = true ∧ (HostCommand.writePc 4095).isLoaderWrite = true ∧
    (next? (exec .ret (at_ 0 0x00EE))).isSome = true := by decide

theorem witness_EveryStepKeepsTheInvariant : (at_ 0 0x8014).Inv ∧ (next? (step (at_ 0 0x8014))).isSome = true :=
  ⟨witness_inv, by decide⟩

theorem witness_HostCommandsKeepTheInvariant : { at_ 0 0x8014 with status := .halted }.Inv ∧
    (next? (hostExec .reset { at_ 0 0x8014 with status := .halted })).isSome = true :=
  ⟨⟨by decide, by decide, by decide, by decide, fun r h => by cases h⟩, by decide⟩

theorem witness_PcStays : (fullStack (at_ 4094 0x2000)).AddressesAtMost 4096 ∧
    (next? (step (fullStack (at_ 4094 0x2000)))).isSome = true ∧ (at_ 4094 0x2000).sp.val = 0 :=
  ⟨⟨by decide, by decide⟩, by decide, rfl⟩

/-- `CALL 0x100` at 0 and `RET` at 0x100. -/
def callRet : State := { at_ 0 0x2100 with mem := (at_ 0 0x2100).mem.writeWord 0x100 0x00EE }

theorem witness_MatchingReturn : callRet.Fetches (.call 0x100) ∧ callRet.sp.val < 16 ∧
    step callRet = .next (runFor 1 callRet) ∧ (runFor 0 (runFor 1 callRet)).Fetches .ret ∧
    (runFor 0 (runFor 1 callRet)).sp.val = callRet.sp.val + 1 ∧
    (next? (step (runFor 0 (runFor 1 callRet)))).isSome = true :=
  ⟨by decide, by decide, rfl, by decide, by decide, by decide⟩

theorem witness_ReturnsGoOnlyBehind : callRet.sp.val = 0 ∧ (runFor 1 callRet).Fetches .ret ∧
    0 < (runFor 1 callRet).sp.val ∧ (next? (step (runFor 1 callRet))).isSome = true := by decide

theorem witness_EveryRunEnds : (at_ 0 0x2000).status = .running := rfl

theorem witness_ControlNeverDepends : ((at_ 0 0x8014).SameControl ((at_ 0 0x8014).writeReg 3 9)) ∧
    (at_ 0 0x8014).regs ≠ ((at_ 0 0x8014).writeReg 3 9).regs ∧ (next? (step (at_ 0 0x8014))).isSome = true :=
  ⟨⟨rfl, rfl, rfl, rfl, rfl, fun _ _ => rfl⟩, by decide, by decide⟩

theorem witness_StaleSlots : ((at_ 0 0x2100).SameButStale (withStack (at_ 0 0x2100) 0 7 0)) ∧
    (at_ 0 0x2100).stack ≠ (withStack (at_ 0 0x2100) 0 7 0).stack ∧ (next? (step (at_ 0 0x2100))).isSome = true ∧
    (next? (exec .ret (fullStack (at_ 0 0x00EE)))).isSome = true ∧ { State.reset with status := .halted }.Ended :=
  ⟨⟨⟨rfl, rfl, rfl, rfl, rfl, fun _ h => absurd h (Nat.not_lt_zero _)⟩, rfl⟩, by decide, by decide, by decide, .inl rfl⟩

theorem witness_RunLoop : (∃ t, Host.Core.run core 2 callRet = .next t) ∧
    (runFor 1 (at_ 0 0x0000)).status ≠ .running := ⟨⟨_, rfl⟩, by decide⟩

theorem witness_LoaderWrites : { at_ 0 0x8014 with status := .idle }.Inv ∧
    { at_ 0 0x8014 with status := .idle }.status = .idle ∧
    (HostCommand.writeMem 4095 0).isLoaderWrite = true ∧ (at_ 0 0x8014).status ≠ .idle :=
  ⟨⟨by decide, by decide, by decide, by decide, fun r h => by cases h⟩, rfl, rfl, by decide⟩

theorem witness_RunIsAccepted : State.reset.status = .idle ∧ (at_ 0 0).status ≠ .idle := by decide

theorem witness_HostHasNoMove : (at_ 0 0).status = .running := rfl

theorem witness_Inspector : State.reset.status ≠ .running ∧
    { State.reset with status := .failed, fault := some ⟨.outOfBoundsFetch, 0, none⟩ }.status = .failed := by decide

theorem witness_LaunchState : ∀ c ∈ [HostCommand.writeMem 4095 0xFF, .writeReg 15 1, .writePc 0xFFFF],
    c.isLoaderWrite = true := by decide

theorem witness_PlacedWord : (at_ 0 0x8014).Inv ∧ decodeTableWord 16 0x2FFF = some (.call 4095) :=
  ⟨witness_inv, by decide⟩

end Sys2Proof.Tests
end

section
/-! SUPPORT. Proofs of the statements of 10_state.md: the stack block, the flags register, who uses registers, stale
slots, reset. -/

namespace Sys2Proof.Machine

/-! ### Call and Return, an equation per outcome -/

theorem exec_ret_of_empty {s : State} (h : s.sp.val = 0) :
    exec .ret s = .next (s.raiseFrom .stackUnderflow (encode .ret)) := by
  simp [exec, execRet, State.pop?_eq_none.2 h]

theorem exec_ret_of_pop {s t : State} {v : Word} (h : s.pop? = some (v, t)) :
    exec .ret s = .next (t.setPc v) := by
  simp [exec, execRet, h]

theorem exec_call_of_full {s : State} (h : s.sp.val = 16) (nnn : Imm12) :
    exec (.call nnn) s = .next (s.raiseFrom .stackOverflow (encode (.call nnn))) := by
  simp [exec, execCall, State.push?_eq_none.2 h]

theorem exec_call_of_push {s t : State} (h : s.push? s.pc = some t) (nnn : Imm12) :
    exec (.call nnn) s = .next (t.setPc (callTarget nnn)) := by
  simp [exec, execCall, h]

/-! ### The stack block (10_state.md R33) -/

theorem State.stackState_eq_empty {s : State} : s.stackState = .empty ↔ s.sp.val = 0 := by
  unfold State.stackState
  split_ifs <;> simp_all

theorem State.stackState_eq_full {s : State} : s.stackState = .full ↔ s.sp.val = 16 := by
  unfold State.stackState
  split_ifs <;> simp_all [Config.stackCapacity]

theorem State.stackState_eq_partly {s : State} : s.stackState = .partly ↔ 0 < s.sp.val ∧ s.sp.val < 16 := by
  have := s.sp_le
  unfold State.stackState Config.stackCapacity
  split_ifs <;> simp <;> omega

/-- A Call on a full stack raises StackOverflow before any write of the stack. -/
theorem step_call_full {s t : State} {nnn : Imm12} (hf : s.Fetches (.call nnn)) (h : step s = .next t)
    (hsp : s.sp.val = 16) :
    t.stack = s.stack ∧ t.sp = s.sp ∧ t.fault.map FaultRecord.condition = some .stackOverflow := by
  rw [step_of_fetches hf, exec_call_of_full (s := s.advancePc) hsp] at h
  cases h
  exact ⟨rfl, rfl, rfl⟩

/-- A Call on any other stack pushes the advanced `pc`. -/
theorem step_call_room {s t : State} {nnn : Imm12} (hf : s.Fetches (.call nnn)) (h : step s = .next t)
    (hsp : s.sp.val < 16) :
    t.sp.val = s.sp.val + 1 ∧ ∀ k : Fin 16, k.val = s.sp.val → t.readSlot k = s.pc + 2 := by
  obtain ⟨u, hu⟩ := State.push?_of_lt (s := s.advancePc) hsp s.advancePc.pc
  rw [step_of_fetches hf, exec_call_of_push hu] at h
  cases h
  obtain ⟨-, husp, hslot, -⟩ := State.push?_eq_some hu
  exact ⟨husp, fun k hk => (hslot k).trans (if_pos hk)⟩

/-- A Return on an empty stack raises StackUnderflow before any write of the stack. -/
theorem step_ret_empty {s t : State} (hf : s.Fetches .ret) (h : step s = .next t) (hsp : s.sp.val = 0) :
    t.stack = s.stack ∧ t.sp = s.sp ∧ t.fault.map FaultRecord.condition = some .stackUnderflow := by
  rw [step_of_fetches hf, exec_ret_of_empty (s := s.advancePc) hsp] at h
  cases h
  exact ⟨rfl, rfl, rfl⟩

/-- A Return on any other stack pops into `pc`. -/
theorem step_ret_pos {s t : State} (hf : s.Fetches .ret) (h : step s = .next t) (hsp : 0 < s.sp.val) :
    t.sp.val + 1 = s.sp.val ∧ ∀ k : Fin 16, k.val = t.sp.val → t.pc = s.readSlot k := by
  obtain ⟨v, u, hu⟩ := State.pop?_of_pos (s := s.advancePc) hsp
  rw [step_of_fetches hf, exec_ret_of_pop hu] at h
  cases h
  obtain ⟨-, husp, hv, -⟩ := State.pop?_eq_some hu
  simp only [State.advancePc_sp, State.setPc_sp] at husp ⊢
  exact ⟨by omega, fun k hk => hv k (hk.trans husp)⟩

/-- Settles O15, by the fill of the stack before the Call or the Return. -/
theorem stackBlockIsTheStatedStateMachine : Obligations.StackBlockIsTheStatedStateMachine := by
  refine ⟨fun s => ⟨s.stackState_eq_empty, s.stackState_eq_full, s.stackState_eq_partly⟩,
    fun s t nnn hf h => ⟨fun hs => ?_, fun hs => ?_⟩, fun s t hf h => ⟨fun hs => ?_, fun hs => ?_⟩⟩
  · exact step_call_full hf h (State.stackState_eq_full.1 hs)
  · have := s.sp_le
    rw [Ne, State.stackState_eq_full] at hs
    obtain ⟨hsp, hslot⟩ := step_call_room hf h (by omega)
    exact ⟨by rw [Ne, State.stackState_eq_empty]; omega, hsp, hslot⟩
  · exact step_ret_empty hf h (State.stackState_eq_empty.1 hs)
  · have := s.sp_le
    rw [Ne, State.stackState_eq_empty] at hs
    obtain ⟨hsp, hpc⟩ := step_ret_pos hf h (by omega)
    exact ⟨by rw [Ne, State.stackState_eq_full]; omega, hsp, hpc⟩

/-! ### The flags register (10_state.md R25) and the loader's register write (70_reset_and_hazards.md R174) -/

/-- After an Add register 15 holds the carry flag of the operands' sum, even when it was the destination. -/
theorem exec_add_flag {s t : State} {x y : RegIdx} (h : exec (.add x y) s = .next t) :
    t.readReg 15 = carryFlag (aluSum (s.readReg x) (s.readReg y)) := by
  rw [exec_add] at h
  cases h
  exact (State.readReg_writeReg ..).trans (if_pos rfl)

/-- An Add writes no register but its destination and register 15. -/
theorem exec_add_readReg_of_ne {s t : State} {x y i : RegIdx} (h : exec (.add x y) s = .next t)
    (hx : i ≠ x) (h15 : i ≠ 15) : t.readReg i = s.readReg i := by
  rw [exec_add] at h
  cases h
  rw [State.readReg_writeReg, if_neg h15, State.readReg_writeReg, if_neg hx]

/-- In Idle the loader's register write is accepted, and that register then reads as written. -/
theorem hostExec_writeReg_of_idle {s : State} (h : s.status = .idle) (i : RegIdx) (v : Byte) :
    ∃ t, hostExec (.writeReg i v) s = .next t ∧ t.readReg i = v :=
  ⟨s.writeReg i v, if_pos h, (State.readReg_writeReg ..).trans (if_pos rfl)⟩

theorem State.readReg_reset (i : RegIdx) : State.reset.readReg i = 0 := by
  simp [State.readReg, State.reset]

/-- Settles O18: the flag an Add leaves is a function of its two operand values. -/
theorem theFlagIsFreshAfterEveryAdd : Obligations.TheFlagIsFreshAfterEveryAdd := by
  refine ⟨fun s t x y h => ⟨?_, fun s' hx hy => ?_⟩, fun s v h => hostExec_writeReg_of_idle h 15 v,
    State.readReg_reset 15⟩
  · rw [exec_add_flag h, carryFlag_toNat]
    split <;> simp
  · obtain ⟨t', h'⟩ := exec_next (.add x y) s'
    exact ⟨t', h', by rw [exec_add_flag h', exec_add_flag h, hx, hy]⟩

/-! ### Two states side by side, and the inspector -/

/-- A relation `R` between states that fetch alike is carried through a step of both, when raising keeps `R` and so does
the handler of the instruction that is fetched. -/
theorem step_lift {R : State → State → Prop} {s t s' : State} (hmem : s.mem = t.mem) (hpc : s.pc = t.pc)
    (hstatus : s.status = t.status) (hst : R s t) (hadv : R s.advancePc t.advancePc)
    (hraise : ∀ u v c a o, R u v → R (u.raise c a o) (v.raise c a o))
    (hexec : ∀ i u, s.decoded? = some (.instr i) → exec i s.advancePc = .next u →
      ∃ v, exec i t.advancePc = .next v ∧ R u v)
    (h : step s = .next s') : ∃ t', step t = .next t' ∧ R s' t' := by
  obtain ⟨hr, ⟨hp, rfl⟩ | ⟨hp, hcase⟩⟩ := step_cases h
  · exact ⟨_, step_outOfBounds (hstatus ▸ hr) (hpc ▸ hp), hpc ▸ hraise _ _ _ _ _ hst⟩
  · rw [step_inBounds (hstatus ▸ hr) (hpc ▸ hp), ← hmem, ← hpc]
    obtain ⟨i, hd, he⟩ | ⟨hd, rfl⟩ := hcase
    · rw [hd]
      exact hexec i s' (by rw [State.decoded?_of_le hp, hd]) he
    · rw [hd]
      exact ⟨_, dispatch_unimplemented _ t, hpc ▸ hraise _ _ _ _ _ hadv⟩

/-- Once the run has ended the inspector reads the registers and every slot (70_reset_and_hazards.md R177). -/
theorem inspect_of_ended {s : State} (h : s.Ended) :
    ∃ v, inspect s = .next v ∧ v.regs = s.regs ∧ v.stack = s.stack := by
  have hr : s.status ≠ .running := by
    rcases h with h | h <;> simp [h]
  exact ⟨_, if_neg hr, rfl, rfl⟩

/-! ### Only Add uses registers (10_state.md R23, R26) -/

/-- The same state with the register contents `r`. -/
def State.withRegs (s : State) (r : Vector Byte Config.numRegs) : State := { s with regs := r }

theorem State.push?_withRegs (s : State) (r : Vector Byte Config.numRegs) (v : Word) :
    (s.withRegs r).push? v = (s.push? v).map (·.withRegs r) := by
  by_cases h : s.sp.val < Config.stackCapacity <;> simp [State.push?, State.withRegs, h]

theorem State.pop?_withRegs (s : State) (r : Vector Byte Config.numRegs) :
    (s.withRegs r).pop? = s.pop?.map fun p => (p.1, p.2.withRegs r) := by
  by_cases h : 0 < s.sp.val <;> simp [State.pop?, State.withRegs, h]

/-- No handler but Add's reads a register, and none but Add's writes one: with any other contents it does the same. -/
theorem exec_withRegs {i : Instr} {s t : State} (hi : ∀ x y, i ≠ .add x y) (h : exec i s = .next t)
    (r : Vector Byte Config.numRegs) : exec i (s.withRegs r) = .next (t.withRegs r) := by
  cases i with
  | halt => cases h; rfl
  | ret =>
    rcases exec_ret_cases s with ⟨h0, he⟩ | ⟨-, v, u, hu, he⟩ <;> rw [he] at h <;> cases h
    · exact exec_ret_of_empty (s := s.withRegs r) h0
    · exact exec_ret_of_pop (t := u.withRegs r) (by rw [State.pop?_withRegs, hu]; rfl)
  | call nnn =>
    rcases exec_call_cases nnn s with ⟨h16, he⟩ | ⟨-, u, hu, he⟩ <;> rw [he] at h <;> cases h
    · exact exec_call_of_full (s := s.withRegs r) h16 nnn
    · exact exec_call_of_push (t := u.withRegs r) ((s.push?_withRegs r s.pc).trans (by rw [hu]; rfl)) nnn
  | add x y => exact absurd rfl (hi x y)

/-- A state that is unchanged when the registers become `r` holds `r`. -/
theorem State.regs_eq_of_next_withRegs {t : State} {r : Vector Byte Config.numRegs}
    (h : (.next t : Result) = .next (t.withRegs r)) : t.regs = r :=
  congrArg State.regs (Host.Outcome.next.inj h)

/-- A handler that is not Add's leaves the registers: put back what they hold, and it does what it did. -/
theorem exec_regs_of_not_add {i : Instr} {s t : State} (hi : ∀ x y, i ≠ .add x y) (h : exec i s = .next t) :
    t.regs = s.regs :=
  State.regs_eq_of_next_withRegs (h.symm.trans (exec_withRegs hi h s.regs))

/-- A step that fetches no Add does the same with any other register contents. -/
theorem step_withRegs {s t : State} (hd : ∀ x y, s.decoded? ≠ some (.instr (.add x y))) (h : step s = .next t)
    (r : Vector Byte Config.numRegs) : step (s.withRegs r) = .next (t.withRegs r) := by
  obtain ⟨t', ht', rfl⟩ := step_lift (R := fun u v => v = u.withRegs r) (s := s) (t := s.withRegs r)
    rfl rfl rfl rfl rfl (fun u v c a o huv => by rw [huv]; rfl)
    (fun i u hi hu => ⟨_, exec_withRegs (fun x y hxy => hd x y (hxy ▸ hi)) hu r, rfl⟩) h
  exact ht'

theorem step_regs_of_not_add {s t : State} (hd : ∀ x y, s.decoded? ≠ some (.instr (.add x y)))
    (h : step s = .next t) : t.regs = s.regs :=
  State.regs_eq_of_next_withRegs (h.symm.trans (step_withRegs hd h s.regs))

/-- A step that fetches an Add leaves every register but its destination and register 15. -/
theorem step_readReg_of_add {s t : State} {x y i : RegIdx} (hd : s.decoded? = some (.instr (.add x y)))
    (h : step s = .next t) (hx : i ≠ x) (h15 : i ≠ 15) : t.readReg i = s.readReg i := by
  rw [step_of_fetches ⟨(step_cases h).1, hd⟩] at h
  exact exec_add_readReg_of_ne (s := s.advancePc) h hx h15

/-- Settles O20: a step that fetches no Add commutes with replacing the registers. -/
theorem onlyAddUsesRegisters : Obligations.OnlyAddUsesRegisters := by
  refine ⟨fun s t h => ⟨fun x y hd i hx h15 => step_readReg_of_add hd h hx h15,
    fun hd => ⟨fun i => ?_, step_withRegs hd h⟩⟩, fun s i v h => hostExec_writeReg_of_idle h i v, fun s h => ?_⟩
  · rw [State.readReg, step_regs_of_not_add hd h, State.readReg]
  · obtain ⟨v, hv, hregs, -⟩ := inspect_of_ended h
    exact ⟨v, hv, fun i => by rw [State.readReg, hregs]⟩

/-! ### Stale slots (10_state.md R34) -/

/-- A Return writes no slot, whether it pops or raises. -/
theorem exec_ret_stack {s t : State} (h : exec .ret s = .next t) : t.stack = s.stack := by
  rcases exec_ret_cases s with ⟨-, he⟩ | ⟨-, v, u, hu, he⟩ <;> rw [he] at h <;> cases h
  · rfl
  · obtain ⟨-, -, -, hstack, -⟩ := State.pop?_eq_some hu
    exact hstack

section SameControl

variable {s t s' t' : State} {v : Word}

theorem State.SameControl.setPc (h : s.SameControl t) (p : Word) : (s.setPc p).SameControl (t.setPc p) := by
  obtain ⟨hmem, -, hstatus, hfault, hlive⟩ := h
  exact ⟨hmem, rfl, hstatus, hfault, hlive⟩

theorem State.SameControl.advancePc (h : s.SameControl t) : s.advancePc.SameControl t.advancePc := by
  have hpc : s.pc = t.pc := h.2.1
  rw [State.advancePc, State.advancePc, hpc]
  exact h.setPc _

theorem State.SameControl.halt (h : s.SameControl t) : s.halt.SameControl t.halt := by
  obtain ⟨hmem, hpc, -, hfault, hlive⟩ := h
  exact ⟨hmem, hpc, rfl, hfault, hlive⟩

theorem State.SameControl.raise (h : s.SameControl t) (c : Condition) (a : Word) (o : Option Word) :
    (s.raise c a o).SameControl (t.raise c a o) := by
  obtain ⟨hmem, hpc, -, -, hlive⟩ := h
  exact ⟨hmem, hpc, rfl, rfl, hlive⟩

theorem State.SameControl.raiseFrom (h : s.SameControl t) (c : Condition) (w : Word) :
    (s.raiseFrom c w).SameControl (t.raiseFrom c w) := by
  have hpc : s.pc = t.pc := h.2.1
  rw [State.raiseFrom, State.raiseFrom, State.instrAddr, State.instrAddr, hpc]
  exact h.raise ..

/-- Register writes, even of different values to different registers, keep the agreement on control. -/
theorem State.SameControl.writeReg (h : s.SameControl t) (i j : RegIdx) (a b : Byte) :
    (s.writeReg i a).SameControl (t.writeReg j b) := h

/-- A pop takes the same value from two stacks that agree on their live slots, and they still agree. -/
theorem State.SameControl.pop? (h : s.SameControl t) {w : Word} (hs : s.pop? = some (v, s'))
    (ht : t.pop? = some (w, t')) : v = w ∧ s'.SameControl t' := by
  obtain ⟨hmem, hpc, hstatus, hfault, hsp, hlive⟩ := h
  obtain ⟨hpos, hssp, hsv, hsstack, -, hsmem, hspc, hsstatus, hsfault⟩ := State.pop?_eq_some hs
  obtain ⟨-, htsp, htv, htstack, -, htmem, htpc, htstatus, htfault⟩ := State.pop?_eq_some ht
  have hle := s.sp_le
  rw [← hsp] at htsp htv
  refine ⟨?_, by rw [hsmem, htmem, hmem], by rw [hspc, htpc, hpc], by rw [hsstatus, htstatus, hstatus],
    by rw [hsfault, htfault, hfault], Fin.ext (hssp.trans htsp.symm), fun k hk => ?_⟩
  · have hk : s.sp.val - 1 < Config.stackCapacity := by simp only [Config.stackCapacity]; omega
    rw [hsv ⟨_, hk⟩ rfl, htv ⟨_, hk⟩ rfl]
    exact hlive _ (by simp only; omega)
  · rw [State.readSlot_of_stack hsstack, State.readSlot_of_stack htstack]
    exact hlive k (by omega)

/-- Two stacks that agree on their live slots still do after a push of the same value. -/
theorem State.SameControl.push? (h : s.SameControl t) (hs : s.push? v = some s') (ht : t.push? v = some t') :
    s'.SameControl t' := by
  obtain ⟨hmem, hpc, hstatus, hfault, hsp, hlive⟩ := h
  obtain ⟨-, hssp, hsslot, -, hsmem, hspc, hsstatus, hsfault⟩ := State.push?_eq_some hs
  obtain ⟨-, htsp, htslot, -, htmem, htpc, htstatus, htfault⟩ := State.push?_eq_some ht
  rw [← hsp] at htsp htslot
  refine ⟨by rw [hsmem, htmem, hmem], by rw [hspc, htpc, hpc], by rw [hsstatus, htstatus, hstatus],
    by rw [hsfault, htfault, hfault], Fin.ext (hssp.trans htsp.symm), fun k hk => ?_⟩
  rw [hsslot, htslot]
  split
  · rfl
  · exact hlive k (by omega)

/-- Every handler keeps the agreement on control: it reads neither registers nor stale slots to direct it. -/
theorem exec_sameControl {i : Instr} (h : s.SameControl t) (he : exec i s = .next s') :
    ∃ t', exec i t = .next t' ∧ s'.SameControl t' := by
  have ⟨_, hpc, _, _, hsp, _⟩ := h
  cases i with
  | halt => cases he; exact ⟨_, rfl, h.halt⟩
  | ret =>
    rcases exec_ret_cases s with ⟨h0, hs⟩ | ⟨hpos, v, u, hu, hs⟩ <;> rw [hs] at he <;> cases he
    · exact ⟨_, exec_ret_of_empty (hsp ▸ h0), h.raiseFrom ..⟩
    · obtain ⟨w, u', hu'⟩ := State.pop?_of_pos (s := t) (hsp ▸ hpos)
      obtain ⟨rfl, hc⟩ := h.pop? hu hu'
      exact ⟨_, exec_ret_of_pop hu', hc.setPc v⟩
  | call nnn =>
    rcases exec_call_cases nnn s with ⟨h16, hs⟩ | ⟨hlt, u, hu, hs⟩ <;> rw [hs] at he <;> cases he
    · exact ⟨_, exec_call_of_full (hsp ▸ h16) nnn, h.raiseFrom ..⟩
    · obtain ⟨u', hu'⟩ := State.push?_of_lt (s := t) (hsp ▸ hlt) t.pc
      exact ⟨_, exec_call_of_push hu' nnn, (h.push? hu (hpc ▸ hu')).setPc _⟩
  | add x y => cases he; exact ⟨_, exec_add x y t, (h.writeReg ..).writeReg ..⟩

/-- What a handler leaves in the registers depends on the registers alone. -/
theorem exec_regs_congr {i : Instr} (hregs : s.regs = t.regs) (hs : exec i s = .next s')
    (ht : exec i t = .next t') : s'.regs = t'.regs := by
  by_cases hi : ∃ x y, i = .add x y
  · obtain ⟨x, y, rfl⟩ := hi
    rw [exec_add] at hs ht
    cases hs
    cases ht
    simp only [State.writeReg, State.readReg, hregs]
  · have hi : ∀ x y, i ≠ .add x y := fun x y h => hi ⟨x, y, h⟩
    rw [exec_regs_of_not_add hi hs, exec_regs_of_not_add hi ht, hregs]

end SameControl

/-- A step keeps two states equal but for stale slots. -/
theorem step_sameButStale {s t s' : State} (h : s.SameButStale t) (hs : step s = .next s') :
    ∃ t', step t = .next t' ∧ s'.SameButStale t' := by
  have ⟨hc, hregs⟩ := h
  have ⟨hmem, hpc, hstatus, _⟩ := hc
  refine step_lift hmem hpc hstatus h ⟨hc.advancePc, hregs⟩
    (fun u v c a o huv => ⟨huv.1.raise c a o, huv.2⟩) (fun i u _ hu => ?_) hs
  obtain ⟨v, hv, huv⟩ := exec_sameControl hc.advancePc hu
  exact ⟨v, hv, huv, exec_regs_congr (s := s.advancePc) (t := t.advancePc) hregs hu hv⟩

/-- Settles O35: no step tells apart two states that differ in stale slots only. -/
theorem staleSlotsStayAndAreNeverRead : Obligations.StaleSlotsStayAndAreNeverRead := by
  refine ⟨fun s t h => State.readSlot_of_stack (exec_ret_stack h), fun s t s' => step_sameButStale, fun s h => ?_⟩
  obtain ⟨v, hv, -, hstack⟩ := inspect_of_ended h
  exact ⟨v, hv, fun k => by rw [State.readSlot, hstack]⟩

/-! ### Reset (10_state.md R41) -/

theorem State.readSlot_reset (k : Fin Config.stackCapacity) : State.reset.readSlot k = 0 := by
  simp [State.readSlot, State.reset]

theorem Memory.read_reset (a : Nat) : State.reset.mem.read a = 0 := rfl

/-- Every word of reset memory is the encoding of Halt. -/
theorem Memory.readWord_reset (a : Nat) : State.reset.mem.readWord a = encode .halt := by
  rw [Memory.readWord, Memory.read_reset, Memory.read_reset]; rfl

/-- Settles O1, item by item. -/
theorem resetLeavesEveryItemAtItsStatedValue : Obligations.ResetLeavesEveryItemAtItsStatedValue :=
  ⟨State.readReg_reset, Memory.read_reset, rfl, rfl, State.readSlot_reset, rfl, rfl,
    fun a => by rw [Memory.readWord_reset]; rfl⟩

end Sys2Proof.Machine
end

section
namespace Sys2Proof

/-! ### The five outcomes of decode (30_encoding.md R75), each without the earlier ones, and the fields as numbers (R71) -/

section
variable {w : Word}

theorem decodeWord_of_halt (h : fieldC w = 0 ∧ fieldX w = 0 ∧ fieldY w = 0 ∧ fieldD w = 0) :
    decodeWord w = .instr .halt := if_pos h

theorem decodeWord_of_ret (h : fieldC w = 0 ∧ fieldX w = 0 ∧ fieldY w = 0xE ∧ fieldD w = 0xE) :
    decodeWord w = .instr .ret := by
  simp [decodeWord, h]

theorem decodeWord_of_call (h : fieldC w = 2) : decodeWord w = .instr (.call (fieldNnn w)) := by
  simp [decodeWord, h]

theorem decodeWord_of_add (h : fieldC w = 8 ∧ fieldD w = 4) :
    decodeWord w = .instr (.add (regOfField (fieldX w)) (regOfField (fieldY w))) := by
  simp [decodeWord, h]

theorem decodeWord_of_other (hhalt : ¬(fieldC w = 0 ∧ fieldX w = 0 ∧ fieldY w = 0 ∧ fieldD w = 0))
    (hret : ¬(fieldC w = 0 ∧ fieldX w = 0 ∧ fieldY w = 0xE ∧ fieldD w = 0xE))
    (hcall : ¬fieldC w = 2) (hadd : ¬(fieldC w = 8 ∧ fieldD w = 4)) : decodeWord w = .unimplemented w := by
  rw [decodeWord, if_neg hhalt, if_neg hret, if_neg hcall, if_neg hadd]

theorem fieldC_eq_iff {c : Nibble} : fieldC w = c ↔ w.toNat / 4096 = c.toNat := by
  rw [← BitVec.toNat_inj, fieldC_toNat]

theorem fieldC_fieldD_eq_iff {c d : Nibble} :
    (fieldC w = c ∧ fieldD w = d) ↔ (w.toNat / 4096 = c.toNat ∧ w.toNat % 16 = d.toNat) := by
  rw [fieldC_eq_iff, ← BitVec.toNat_inj, fieldD_toNat]

theorem fields_eq_iff {c x y d : Nibble} :
    (fieldC w = c ∧ fieldX w = x ∧ fieldY w = y ∧ fieldD w = d) ↔
      (w.toNat / 4096 = c.toNat ∧ w.toNat / 256 % 16 = x.toNat ∧ w.toNat / 16 % 16 = y.toNat ∧
        w.toNat % 16 = d.toNat) := by
  simp only [← BitVec.toNat_inj, fieldC_toNat, fieldX_toNat, fieldY_toNat, fieldD_toNat]

end

/-- Settles O2, clause by clause: the outcome on the fields, with the fields read as numbers. -/
theorem decodeIsTheFiveWayChoice : Obligations.DecodeIsTheFiveWayChoice := by
  refine fun w => ⟨fun h => ?halt, fun h => ?ret, fun h => ?call, fun h => ?add, fun hhalt hret hcall hadd => ?other⟩
  case halt => exact decodeWord_of_halt (fields_eq_iff.2 h)
  case ret => exact decodeWord_of_ret (fields_eq_iff.2 h)
  case call => exact ⟨fieldNnn w, fieldNnn_toNat w, decodeWord_of_call (fieldC_eq_iff.2 h)⟩
  case add =>
    exact ⟨regOfField (fieldX w), regOfField (fieldY w), fieldX_toNat w, fieldY_toNat w,
      decodeWord_of_add (fieldC_fieldD_eq_iff.2 h)⟩
  case other =>
    exact decodeWord_of_other (mt fields_eq_iff.1 hhalt) (mt fields_eq_iff.1 hret) (mt fieldC_eq_iff.1 hcall)
      (mt fieldC_fieldD_eq_iff.1 hadd)

end Sys2Proof
end

section
/-! SUPPORT. Proofs of the statements of 40_step_cycle.md: the bounds check of the fetch, and what runs after it. -/

namespace Sys2Proof.Machine

/-! ### Which conditions an instruction can raise (60_exceptions.md R141) -/

/-- A handler that ends a running Machine in `Failed` raised one of the two conditions of the call stack. -/
theorem exec_failed {i : Instr} {s t : State} (hr : s.status = .running) (h : exec i s = .next t)
    (hf : t.status = .failed) :
    ∃ c, (c = .stackOverflow ∨ c = .stackUnderflow) ∧ t = s.raiseFrom c (encode i) := by
  have still_running {u : State} (hu : u.status = s.status) : u.status ≠ .failed := by
    rw [hu, hr]; decide
  cases i with
  | halt => cases h; cases hf
  | ret =>
    rcases exec_ret_cases s with ⟨-, he⟩ | ⟨-, v, u, hu, he⟩ <;> rw [he] at h <;> cases h
    · exact ⟨_, .inr rfl, rfl⟩
    · obtain ⟨-, -, -, -, -, -, -, hstatus, -⟩ := State.pop?_eq_some hu
      exact absurd hf (still_running hstatus)
  | call nnn =>
    rcases exec_call_cases nnn s with ⟨-, he⟩ | ⟨-, u, hu, he⟩ <;> rw [he] at h <;> cases h
    · exact ⟨_, .inl rfl, rfl⟩
    · obtain ⟨-, -, -, -, -, -, hstatus, -⟩ := State.push?_eq_some hu
      exact absurd hf (still_running hstatus)
  | add x y => cases h; exact absurd hf (still_running rfl)

/-- A step that fails after a fetch in bounds raised another condition: its word was no instruction, or its handler
raised. -/
theorem step_inBounds_failed {s t : State} (hpc : s.pc.toNat ≤ 4094) (h : step s = .next t) (hf : t.status = .failed) :
    ∃ r, t.fault = some r ∧ r.condition ≠ .outOfBoundsFetch := by
  obtain ⟨hr, ⟨hge, -⟩ | ⟨-, ⟨i, -, he⟩ | ⟨-, rfl⟩⟩⟩ := step_cases h
  · omega
  · obtain ⟨c, hc, rfl⟩ := exec_failed (s := s.advancePc) hr he hf
    exact ⟨_, rfl, by rcases hc with rfl | rfl <;> exact nofun⟩
  · exact ⟨_, rfl, nofun⟩

/-- Settles O8: from 4095 the bounds check raises; below, a step that fails was stopped after its fetch. -/
theorem fetchIsOutOfBoundsExactlyFrom4095 : Obligations.FetchIsOutOfBoundsExactlyFrom4095 := by
  refine fun s hr => ⟨step_outOfBounds hr, fun hpc => ?_⟩
  obtain ⟨t, ht⟩ := step_next_of_running hr
  exact ⟨t, ht, step_inBounds_failed hpc ht⟩

/-! ### The word at `pc` (40_step_cycle.md R92, R93) -/

/-- The big-endian word at `a` is determined by its value. -/
theorem Memory.eq_readWord {m : Memory} {a : Nat} {w : Word}
    (h : w.toNat = (m.read a).toNat * 256 + (m.read (a + 1)).toNat) : w = m.readWord a :=
  BitVec.eq_of_toNat_eq (h.trans (m.readWord_toNat a).symm)

/-- Settles O7: a fetch in bounds dispatches the word at `pc`, and the advance does not wrap. -/
theorem stepRunsTheDecodedWordWithPcAdvanced : Obligations.StepRunsTheDecodedWordWithPcAdvanced := by
  intro s w hr hpc hw
  have hstep : step s = dispatch (decodeWord w) s.advancePc := by
    rw [Memory.eq_readWord hw, step_inBounds hr hpc]
  refine ⟨State.pc_add_two_toNat hpc, fun i hd => ?_, fun v hd => ?_⟩
  · rw [hstep, hd]; rfl
  · obtain rfl := decodeWord_unimplemented hd
    rw [hstep, hd]
    exact dispatch_unimplemented v s

end Sys2Proof.Machine
end

section
/-! SUPPORT. Proofs of the statements of 41_control_transfer.md: Call and Return, in every state and as a step. -/

namespace Sys2Proof.Machine

/-- Registers are read from the register file alone. -/
theorem State.readReg_of_regs {s t : State} (h : s.regs = t.regs) (i : RegIdx) : s.readReg i = t.readReg i := by
  rw [State.readReg, State.readReg, h]

/-! ### Call (41_control_transfer.md R110) -/

/-- Everything a Call does on a stack that is not full. -/
theorem exec_call_of_lt {s : State} (h : s.sp.val < 16) (nnn : Imm12) :
    ∃ t, exec (.call nnn) s = .next t ∧ t.pc = callTarget nnn ∧ t.sp.val = s.sp.val + 1 ∧
      (∀ k, t.readSlot k = if k.val = s.sp.val then s.pc else s.readSlot k) ∧
      t.regs = s.regs ∧ t.mem = s.mem ∧ t.status = s.status ∧ t.fault = s.fault := by
  obtain ⟨u, hu⟩ := State.push?_of_lt h s.pc
  obtain ⟨-, hsp, hslot, hregs, hmem, -, hstatus, hfault⟩ := State.push?_eq_some hu
  exact ⟨_, exec_call_of_push hu nnn, rfl, hsp, hslot, hregs, hmem, hstatus, hfault⟩

/-- A step that fetches a Call on a full stack raises at the Call's own address. -/
theorem step_call_of_full {s : State} {nnn : Imm12} (hf : s.Fetches (.call nnn)) (h : s.sp.val = 16) :
    step s = .next (s.advancePc.raise .stackOverflow s.pc (some (encode (.call nnn)))) := by
  rw [step_of_fetches hf, exec_call_of_full (s := s.advancePc) h, State.advancePc_raiseFrom]

/-- Settles O13: in a step the handler of the Call runs with `pc` advanced, which is what it pushes. -/
theorem callPushesTheAdvancedPc : Obligations.CallPushesTheAdvancedPc := by
  refine fun s nnn => ⟨fun hlt => ?handler, fun hf hlt => ?step, fun hf hfull => ?overflow⟩
  case handler =>
    obtain ⟨t, ht, hpc, hsp, hslot, hregs, hmem, hstatus, hfault⟩ := exec_call_of_lt hlt nnn
    exact ⟨t, ht, by rw [hpc, callTarget_toNat], hsp, hslot, State.readReg_of_regs hregs, fun a => by rw [hmem],
      hstatus, hfault⟩
  case step =>
    obtain ⟨hrun, hle, -⟩ := State.fetches_iff.1 hf
    obtain ⟨t, ht, hpc, hsp, hslot, hregs, -, hstatus, -⟩ := exec_call_of_lt (s := s.advancePc) hlt nnn
    refine ⟨t, (step_of_fetches hf).trans ht, by rw [hpc, callTarget_toNat], hsp, hstatus.trans hrun,
      State.readReg_of_regs hregs, fun k => ⟨fun hk => ?_, fun hk => (hslot k).trans (if_neg hk)⟩⟩
    calc (t.readSlot k).toNat = (s.pc + 2).toNat := congrArg _ ((hslot k).trans (if_pos hk))
      _ = s.pc.toNat + 2 := State.pc_add_two_toNat hle
  case overflow => exact ⟨encode (.call nnn), encode_call_toNat nnn, step_call_of_full hf hfull⟩

/-! ### Return (41_control_transfer.md R112) -/

/-- Everything a Return does on a stack that is not empty. -/
theorem exec_ret_of_pos {s : State} (h : 0 < s.sp.val) :
    ∃ t, exec .ret s = .next t ∧ t.sp.val = s.sp.val - 1 ∧
      (∀ k : Fin Config.stackCapacity, k.val = s.sp.val - 1 → t.pc = s.readSlot k) ∧ t.stack = s.stack ∧
      t.regs = s.regs ∧ t.mem = s.mem ∧ t.status = s.status ∧ t.fault = s.fault := by
  obtain ⟨v, u, hu⟩ := State.pop?_of_pos h
  obtain ⟨-, hsp, hv, hstack, hregs, hmem, -, hstatus, hfault⟩ := State.pop?_eq_some hu
  exact ⟨_, exec_ret_of_pop hu, hsp, hv, hstack, hregs, hmem, hstatus, hfault⟩

/-- A step that fetches a Return on an empty stack raises at the Return's own address. -/
theorem step_ret_of_empty {s : State} (hf : s.Fetches .ret) (h : s.sp.val = 0) :
    step s = .next (s.advancePc.raise .stackUnderflow s.pc (some (encode .ret))) := by
  rw [step_of_fetches hf, exec_ret_of_empty (s := s.advancePc) h, State.advancePc_raiseFrom]

/-- Settles O14: a step is the handler of the Return, which reads no `pc` and so does not see that it was advanced. -/
theorem returnPopsIntoPc : Obligations.ReturnPopsIntoPc := by
  refine fun s => ⟨fun hpos => ?handler, fun hf hpos => ?step, step_ret_of_empty⟩
  case handler =>
    obtain ⟨t, ht, hsp, hpc, hstack, hregs, hmem, hstatus, hfault⟩ := exec_ret_of_pos hpos
    exact ⟨t, ht, hsp, hpc, State.readSlot_of_stack hstack, State.readReg_of_regs hregs, fun a => by rw [hmem],
      hstatus, hfault⟩
  case step =>
    obtain ⟨hrun, -, -⟩ := State.fetches_iff.1 hf
    obtain ⟨t, ht, hsp, hpc, hstack, hregs, -, hstatus, -⟩ := exec_ret_of_pos (s := s.advancePc) hpos
    exact ⟨t, (step_of_fetches hf).trans ht, hsp, hstatus.trans hrun, hpc, State.readSlot_of_stack hstack,
      State.readReg_of_regs hregs⟩

end Sys2Proof.Machine
end

section
/-! SUPPORT. Proofs of the statements of 42_arithmetic.md: the whole effect of an Add, and an Add with its operands swapped. -/

namespace Sys2Proof.Machine

/-- The mathematical sum does not depend on the order of the operands. -/
theorem aluSum_comm (a b : Byte) : aluSum a b = aluSum b a := Nat.add_comm ..

section Add
variable {s t : State} {x y : RegIdx} (h : exec (.add x y) s = .next t)
include h

/-- An Add writes its wrapped sum to its destination, where the flag does not overwrite it (42_arithmetic.md R121). -/
theorem exec_add_result (hx : x ≠ 15) : t.readReg x = aluResult (aluSum (s.readReg x) (s.readReg y)) := by
  rw [exec_add] at h
  cases h
  rw [State.readReg_writeReg, if_neg hx, State.readReg_writeReg, if_pos rfl]

/-- Every register after an Add: the test for register 15 comes first because the flag is written last. -/
theorem exec_add_readReg (i : RegIdx) : t.readReg i =
    if i = 15 then carryFlag (aluSum (s.readReg x) (s.readReg y))
    else if i = x then aluResult (aluSum (s.readReg x) (s.readReg y)) else s.readReg i := by
  split_ifs with h15 hx
  · rw [h15, exec_add_flag h]
  · subst hx
    exact exec_add_result h h15
  · exact exec_add_readReg_of_ne h hx h15

/-- An Add changes nothing but registers. -/
theorem exec_add_frame : t.pc = s.pc ∧ t.sp = s.sp ∧ t.stack = s.stack ∧ t.mem = s.mem ∧ t.status = s.status ∧
    t.fault = s.fault := by
  rw [exec_add] at h
  cases h
  exact ⟨rfl, rfl, rfl, rfl, rfl, rfl⟩

end Add

/-- Settles O16: a step is the handler of the Add, which leaves the advanced `pc` and the status as they are. -/
theorem addWritesTheSumAndThenTheFlag : Obligations.AddWritesTheSumAndThenTheFlag := by
  refine fun s x y => ⟨?handler, fun hf => ?step⟩
  case handler =>
    obtain ⟨t, ht⟩ := exec_next (.add x y) s
    obtain ⟨hpc, hsp, hstack, hmem, hstatus, hfault⟩ := exec_add_frame ht
    refine ⟨t, ht, fun i => ?_, hpc, hsp, State.readSlot_of_stack hstack, fun a => by rw [hmem], hstatus, hfault⟩
    rw [exec_add_readReg ht, apply_ite BitVec.toNat, apply_ite BitVec.toNat, carryFlag_toNat, aluResult_toNat]
    rfl
  case step =>
    obtain ⟨hrun, hle, -⟩ := State.fetches_iff.1 hf
    obtain ⟨t, ht⟩ := exec_next (.add x y) s.advancePc
    obtain ⟨hpc, -, -, -, hstatus, -⟩ := exec_add_frame ht
    exact ⟨t, (step_of_fetches hf).trans ht, ht, by rw [hpc]; exact State.pc_add_two_toNat hle, hstatus.trans hrun⟩

/-- Settles O19: flag and result are functions of the sum, which commutes; what is written elsewhere is the Add's frame. -/
theorem addCommutesInValueAndNotInEffect : Obligations.AddCommutesInValueAndNotInEffect := by
  intro s x y
  obtain ⟨t, ht⟩ := exec_next (.add x y) s
  obtain ⟨u, hu⟩ := exec_next (.add y x) s
  have hsum := aluSum_comm (s.readReg x) (s.readReg y)
  refine ⟨t, u, ht, hu, ?flag, fun hx hy => ?result, exec_add_readReg_of_ne hu,
    fun hxy => exec_add_readReg_of_ne ht hxy.symm⟩
  case flag => rw [exec_add_flag ht, exec_add_flag hu, hsum]
  case result => rw [exec_add_result ht hx, exec_add_result hu hy, hsum]

end Sys2Proof.Machine
end

section
/-! SUPPORT. Proof of the statement of 43_halt_and_unimplemented.md about Halt. -/

namespace Sys2Proof.Machine

/-- A step that fetches Halt is the advance of `pc` and then the halt. -/
theorem step_halt {s : State} (hf : s.Fetches .halt) : step s = .next s.advancePc.halt := by
  rw [step_of_fetches hf, exec_halt]

/-- A halted Machine takes no step (10_state.md R38). -/
theorem step_halt_ne_next (s t : State) : step s.halt ≠ .next t := by
  intro h
  obtain ⟨hr, -⟩ := step_cases h
  rw [State.halt_status] at hr
  cases hr

/-- Run from reset with nothing loaded fetches Halt: `pc` is 0, and every word of reset memory is Halt. -/
theorem fetches_halt_reset : { State.reset with status := .running }.Fetches .halt :=
  State.fetches_iff.2 ⟨rfl, Nat.zero_le _, by rw [Memory.readWord_reset]; exact decodeWord_of_halt (by decide)⟩

/-- Settles O12: a step that fetches Halt is the advance of `pc` and the halt, and the Machine run from reset is one case. -/
theorem haltEndsTheRunWithPcAdvanced : Obligations.HaltEndsTheRunWithPcAdvanced := by
  refine ⟨exec_halt, fun s hf => ⟨step_halt hf, ?advance, step_halt_ne_next s.advancePc⟩, step_halt fetches_halt_reset⟩
  case advance =>
    obtain ⟨-, hle, -⟩ := State.fetches_iff.1 hf
    exact State.pc_add_two_toNat hle

end Sys2Proof.Machine
end

section
/-! SUPPORT. Decode and encode are inverse (30_encoding.md R75, R76): a word is the encoding of an instruction exactly
when it decodes to it. -/

namespace Sys2Proof

/-- A word that decodes to an instruction is its encoding: the fields that decode tested and kept make the word. -/
theorem encode_of_decodeWord {w : Word} {i : Instr} (h : decodeWord w = .instr i) : encode i = w := by
  have hw := word_eq_fields w
  unfold decodeWord at h
  split_ifs at h with hhalt hret hcall hadd <;> cases h <;> apply BitVec.eq_of_toNat_eq
  · obtain ⟨hc, hx, hy, hd⟩ := hhalt
    rw [hw, hc, hx, hy, hd]; rfl
  · obtain ⟨hc, hx, hy, hd⟩ := hret
    rw [hw, hc, hx, hy, hd]; rfl
  · rw [encode_call_toNat, word_eq_c_nnn w, hcall]; rfl
  · obtain ⟨hc, hd⟩ := hadd
    rw [encode_add_toNat, regOfField_val, regOfField_val, hw, hc, hd]; rfl

/-- Every instruction's encoding decodes to it. -/
theorem decodeWord_encode (i : Instr) : decodeWord (encode i) = .instr i := by
  cases i with
  | halt => rfl
  | ret => rfl
  | call nnn =>
    have henc := encode_call_toNat nnn
    have hc : fieldC (encode (.call nnn)) = 2 := fieldC_eq_iff.2 (show _ = 2 by rw [henc]; omega)
    have hnnn : fieldNnn (encode (.call nnn)) = nnn := BitVec.eq_of_toNat_eq (by rw [fieldNnn_toNat, henc]; omega)
    rw [decodeWord_of_call hc, hnnn]
  | add x y =>
    have henc := encode_add_toNat x y
    have hxlt : x.val < 16 := x.isLt
    have hylt : y.val < 16 := y.isLt
    have hcd : fieldC (encode (.add x y)) = 8 ∧ fieldD (encode (.add x y)) = 4 :=
      fieldC_fieldD_eq_iff.2 (show _ = 8 ∧ _ = 4 by rw [henc]; omega)
    have hx : regOfField (fieldX (encode (.add x y))) = x :=
      Fin.ext (by rw [regOfField_val, fieldX_toNat, henc]; omega)
    have hy : regOfField (fieldY (encode (.add x y))) = y :=
      Fin.ext (by rw [regOfField_val, fieldY_toNat, henc]; omega)
    rw [decodeWord_of_add hcd, hx, hy]

theorem decodeWord_eq_instr_iff {w : Word} {i : Instr} : decodeWord w = .instr i ↔ encode i = w :=
  ⟨encode_of_decodeWord, fun h => h ▸ decodeWord_encode i⟩

/-- Decode answers Unimplemented exactly for the words that encode no instruction (30_encoding.md R78). -/
theorem decodeWord_eq_unimplemented_iff {w : Word} : decodeWord w = .unimplemented w ↔ ∀ i, encode i ≠ w := by
  constructor
  · intro h i hi
    rw [decodeWord_eq_instr_iff.2 hi] at h
    cases h
  · intro h
    cases hd : decodeWord w with
    | instr i => exact absurd (encode_of_decodeWord hd) (h i)
    | unimplemented v => rw [decodeWord_unimplemented hd]

end Sys2Proof
end

section
/-! SUPPORT. Proofs of the statements of 60_exceptions.md: which fatal condition a step raises, and what it leaves. -/

namespace Sys2Proof.Machine

/-- Settles O9: such a word decodes to Unimplemented, which dispatch raises with `pc` advanced. -/
theorem everyOtherWordIsAnUnimplementedOpcode : Obligations.EveryOtherWordIsAnUnimplementedOpcode := by
  intro s w hr hfetch hw
  obtain ⟨hpc, rfl⟩ := State.fetch?_eq_some hfetch
  rw [step_inBounds hr hpc, decodeWord_eq_unimplemented_iff.2 hw]
  exact dispatch_unimplemented _ s

/-! ### The table of the conditions (60_exceptions.md R141), row by row -/

section Due
variable {s : State}

theorem State.dueFault?_of_ge (hpc : 4095 ≤ s.pc.toNat) : s.dueFault? = some ⟨.outOfBoundsFetch, s.pc, none⟩ :=
  if_pos hpc

variable (hpc : s.pc.toNat ≤ 4094)
include hpc

theorem State.dueFault?_of_unimplemented {v : Word} (hd : decodeWord (s.mem.readWord s.pc.toNat) = .unimplemented v) :
    s.dueFault? = some ⟨.unimplementedOpcode, s.pc, some (s.mem.readWord s.pc.toNat)⟩ := by
  simp [State.dueFault?, hd, show ¬4095 ≤ s.pc.toNat by omega]

theorem State.dueFault?_of_halt (hd : decodeWord (s.mem.readWord s.pc.toNat) = .instr .halt) :
    s.dueFault? = none := by
  simp [State.dueFault?, hd, show ¬4095 ≤ s.pc.toNat by omega]

theorem State.dueFault?_of_ret (hd : decodeWord (s.mem.readWord s.pc.toNat) = .instr .ret) :
    s.dueFault? = if s.sp.val = 0 then some ⟨.stackUnderflow, s.pc, some (encode .ret)⟩ else none := by
  simp [State.dueFault?, hd, encode_of_decodeWord hd, show ¬4095 ≤ s.pc.toNat by omega]

theorem State.dueFault?_of_call {nnn : Imm12} (hd : decodeWord (s.mem.readWord s.pc.toNat) = .instr (.call nnn)) :
    s.dueFault? = if s.sp.val = 16 then some ⟨.stackOverflow, s.pc, some (encode (.call nnn))⟩ else none := by
  simp [State.dueFault?, hd, encode_of_decodeWord hd, show ¬4095 ≤ s.pc.toNat by omega]

theorem State.dueFault?_of_add {x y : RegIdx} (hd : decodeWord (s.mem.readWord s.pc.toNat) = .instr (.add x y)) :
    s.dueFault? = none := by
  simp [State.dueFault?, hd, show ¬4095 ≤ s.pc.toNat by omega]

end Due

/-- The rows of the table: what a due record says, with the word as an instruction's encoding or as none. -/
theorem State.dueFault?_eq_some {s : State} {r : FaultRecord} (h : s.dueFault? = some r) :
    r = ⟨.outOfBoundsFetch, s.pc, none⟩ ∨
    (∃ w, r = ⟨.unimplementedOpcode, s.pc, some w⟩ ∧ ∀ i, encode i ≠ w) ∨
    r = ⟨.stackUnderflow, s.pc, some (encode .ret)⟩ ∨
    ∃ nnn, r = ⟨.stackOverflow, s.pc, some (encode (.call nnn))⟩ := by
  rcases Nat.lt_or_ge s.pc.toNat 4095 with hlt | hge
  · have hpc : s.pc.toNat ≤ 4094 := by omega
    cases hd : decodeWord (s.mem.readWord s.pc.toNat) with
    | unimplemented v =>
      rw [State.dueFault?_of_unimplemented hpc hd] at h
      rw [decodeWord_unimplemented hd] at hd
      exact .inr (.inl ⟨_, (Option.some.inj h).symm, decodeWord_eq_unimplemented_iff.1 hd⟩)
    | instr i =>
      cases i with
      | halt => rw [State.dueFault?_of_halt hpc hd] at h; cases h
      | ret =>
        rw [State.dueFault?_of_ret hpc hd] at h
        split at h <;> cases h
        exact .inr (.inr (.inl rfl))
      | call nnn =>
        rw [State.dueFault?_of_call hpc hd] at h
        split at h <;> cases h
        exact .inr (.inr (.inr ⟨nnn, rfl⟩))
      | add x y => rw [State.dueFault?_of_add hpc hd] at h; cases h
  · rw [State.dueFault?_of_ge hge] at h
    exact .inl (Option.some.inj h).symm

/-! ### A step raises what is due -/

/-- `u` is `s` as a fatal condition of its next step finds it: with `pc` advanced, unless the fetch is out of bounds
(60_exceptions.md R147). -/
def State.FoundByFault (s u : State) : Prop :=
  (4095 ≤ s.pc.toNat ∧ u = s) ∨ (s.pc.toNat ≤ 4094 ∧ u = s.advancePc)

/-- A step raises the record that is due and writes nothing else, or none is due and the step does not fail. -/
theorem step_cases_due {s t : State} (h : step s = .next t) :
    (∃ r u, s.dueFault? = some r ∧ s.FoundByFault u ∧ t = u.raise r.condition r.addr r.word) ∨
    (s.dueFault? = none ∧ t.status ≠ .failed ∧ t.fault = s.fault) := by
  obtain ⟨hr, ⟨hpc, rfl⟩ | ⟨hpc, w, rfl, ⟨hd, rfl⟩ | ⟨hd, rfl⟩ | ⟨hd, hsp, rfl⟩ |
    ⟨hd, hsp, -, -, -, -, hstatus, hfault, -⟩ | ⟨nnn, hd, hsp, rfl⟩ |
    ⟨nnn, hd, hsp, -, -, -, hstatus, hfault, -⟩ | ⟨x, y, hd, he⟩⟩⟩ := step_cases_full h
  case inl => exact .inl ⟨_, s, State.dueFault?_of_ge hpc, .inl ⟨hpc, rfl⟩, rfl⟩
  all_goals have hfound : s.FoundByFault s.advancePc := .inr ⟨hpc, rfl⟩
  · exact .inl ⟨_, _, State.dueFault?_of_unimplemented hpc hd, hfound, rfl⟩
  · exact .inr ⟨State.dueFault?_of_halt hpc hd, nofun, rfl⟩
  · exact .inl ⟨_, _, (State.dueFault?_of_ret hpc hd).trans (if_pos hsp), hfound, rfl⟩
  · exact .inr ⟨(State.dueFault?_of_ret hpc hd).trans (if_neg (by omega)), by rw [hstatus]; nofun, hfault⟩
  · exact .inl ⟨_, _, (State.dueFault?_of_call hpc hd).trans (if_pos hsp), hfound, rfl⟩
  · exact .inr ⟨(State.dueFault?_of_call hpc hd).trans (if_neg (by omega)), by rw [hstatus]; nofun, hfault⟩
  · obtain ⟨-, -, -, -, hstatus, hfault⟩ := exec_add_frame he
    exact .inr ⟨State.dueFault?_of_add hpc hd, by rw [hstatus, State.advancePc_status, hr]; nofun, hfault⟩

/-- Settles O23: a step that fails raised what was due, and raising writes neither `pc` nor data. -/
theorem fatalConditionsArePrecise : Obligations.FatalConditionsArePrecise := by
  intro s t h hf
  obtain ⟨r, u, -, ⟨hpc, rfl⟩ | ⟨hpc, rfl⟩, rfl⟩ | ⟨-, hnf, -⟩ := step_cases_due h
  · exact ⟨fun _ => rfl, fun hle => by omega, fun _ => rfl, fun _ => rfl, fun _ => rfl, rfl⟩
  · exact ⟨fun hge => by omega, fun _ => State.pc_add_two_toNat hpc, fun _ => rfl, fun _ => rfl, fun _ => rfl, rfl⟩
  · exact absurd hf hnf

/-- The step of a running Machine fails with exactly the record that is due, and otherwise leaves the record alone. -/
theorem step_raises_exactly_what_is_due {s t : State} (h : step s = .next t) :
    (∀ r, s.dueFault? = some r → t.status = .failed ∧ t.fault = some r) ∧
    (s.dueFault? = none → t.status ≠ .failed ∧ t.fault = s.fault) := by
  obtain ⟨r, u, hdue, -, rfl⟩ | ⟨hdue, hkeep⟩ := step_cases_due h <;> rw [hdue]
  · refine ⟨fun r' hr' => ?_, nofun⟩
    cases hr'
    exact ⟨rfl, rfl⟩
  · exact ⟨nofun, fun _ => hkeep⟩

/-- Settles O24: the step raises what is due, and the words recorded are read off the rows of the table. -/
theorem conditionsAreRaisedExactlyWhenDue : Obligations.ConditionsAreRaisedExactlyWhenDue := by
  refine ⟨fun s hr => ?step, fun s r hdue => ?record, rfl, rfl, rfl, rfl⟩
  case step =>
    obtain ⟨t, ht⟩ := step_next_of_running hr
    exact ⟨t, ht, step_raises_exactly_what_is_due ht⟩
  case record =>
    obtain rfl | ⟨w, rfl, hw⟩ | rfl | ⟨nnn, rfl⟩ := State.dueFault?_eq_some hdue
    · exact ⟨nofun, nofun, nofun⟩
    · exact ⟨nofun, nofun, fun _ => ⟨w, rfl, hw⟩⟩
    · exact ⟨fun _ => rfl, nofun, nofun⟩
    · exact ⟨nofun, fun _ => ⟨_, rfl, by rw [encode_call_toNat]; omega⟩, nofun⟩

end Sys2Proof.Machine
end

section
/-! SUPPORT. Proofs of the statements of 70_reset_and_hazards.md: what the inspector reads. -/

namespace Sys2Proof.Machine

/-- What inspection answers outside `Running` (70_reset_and_hazards.md R177), the fault record included (10_state.md R39). -/
theorem inspect_of_not_running {s : State} (h : s.status ≠ .running) :
    inspect s = .next
      { regs := s.regs, mem := s.mem, pc := s.pc, sp := s.sp, stack := s.stack, status := s.status
        fault := if s.status = .failed then s.fault else none } :=
  if_neg h

/-- Settles O40, item by item: only the fault record is read under a condition, which `Failed` meets. -/
theorem inspectorReadsEveryItemOutsideRunning : Obligations.InspectorReadsEveryItemOutsideRunning :=
  fun _ h => ⟨_, inspect_of_not_running h, rfl, rfl, rfl, rfl, rfl, rfl, fun hf => if_pos hf⟩

end Sys2Proof.Machine
end

section
/-! SUPPORT. Proofs of the statements about one step and its handlers: 40_step_cycle.md sections 1, 5 and 6, 20_memory.md
sections 8 and 10, 42_arithmetic.md section 2, 10_state.md section 7. -/

namespace Sys2Proof.Machine

/-! ### The frame of a handler (40_step_cycle.md section 5) -/

/-- What a Return leaves, whether it pops or raises. -/
theorem exec_ret_frame {s t : State} (h : exec .ret s = .next t) :
    t.mem = s.mem ∧ (t.status = .failed ∨ (t.fault = s.fault ∧ t.status = s.status)) := by
  rcases exec_ret_cases s with ⟨-, he⟩ | ⟨-, v, u, hu, he⟩ <;> rw [he] at h <;> cases h
  · exact ⟨rfl, .inl rfl⟩
  · obtain ⟨-, -, -, -, -, hmem, -, hstatus, hfault⟩ := State.pop?_eq_some hu
    exact ⟨hmem, .inr ⟨hfault, hstatus⟩⟩

/-- What a Call leaves, whether it pushes or raises. -/
theorem exec_call_frame {nnn : Imm12} {s t : State} (h : exec (.call nnn) s = .next t) :
    t.mem = s.mem ∧ (∀ k : Fin Config.stackCapacity, k.val ≠ s.sp.val → t.readSlot k = s.readSlot k) ∧
      (t.status = .failed ∨ (t.fault = s.fault ∧ t.status = s.status)) := by
  rcases exec_call_cases nnn s with ⟨-, he⟩ | ⟨-, u, hu, he⟩ <;> rw [he] at h <;> cases h
  · exact ⟨rfl, fun _ _ => rfl, .inl rfl⟩
  · obtain ⟨-, -, hslot, -, hmem, -, hstatus, hfault⟩ := State.push?_eq_some hu
    exact ⟨hmem, fun k hk => (hslot k).trans (if_neg hk), .inr ⟨hfault, hstatus⟩⟩

section ExecFrame
variable {i : Instr} {s t : State} (h : exec i s = .next t)
include h

theorem exec_mem : t.mem = s.mem := by
  cases i with
  | halt => cases h; rfl
  | ret => exact (exec_ret_frame h).1
  | call nnn => exact (exec_call_frame h).1
  | add x y => cases h; rfl

/-- A handler writes no register but an Add's destination and register 15. -/
theorem exec_readReg_of_ne {r : RegIdx} (hr : ∀ x y, i = .add x y → r ≠ x ∧ r ≠ 15) : t.readReg r = s.readReg r := by
  by_cases hi : ∃ x y, i = .add x y
  · obtain ⟨x, y, rfl⟩ := hi
    obtain ⟨hx, h15⟩ := hr x y rfl
    exact exec_add_readReg_of_ne h hx h15
  · exact State.readReg_of_regs (exec_regs_of_not_add (fun x y hxy => hi ⟨x, y, hxy⟩) h) r

/-- A handler writes no slot but the one a Call pushes. -/
theorem exec_readSlot_of_ne {k : Fin Config.stackCapacity} (hk : ∀ nnn, i = .call nnn → k.val ≠ s.sp.val) :
    t.readSlot k = s.readSlot k := by
  cases i with
  | halt => cases h; rfl
  | ret => exact State.readSlot_of_stack (exec_ret_stack h) k
  | call nnn =>
    obtain ⟨-, hslot, -⟩ := exec_call_frame h
    exact hslot k (hk nnn rfl)
  | add x y => cases h; rfl

/-- `sp` and `pc` are written by Call and Return only. -/
theorem exec_sp_pc (hcall : ∀ nnn, i ≠ .call nnn) (hret : i ≠ .ret) : t.sp = s.sp ∧ t.pc = s.pc := by
  cases i with
  | halt => cases h; exact ⟨rfl, rfl⟩
  | ret => exact absurd rfl hret
  | call nnn => exact absurd rfl (hcall nnn)
  | add x y => cases h; exact ⟨rfl, rfl⟩

/-- A handler that does not raise leaves the fault record, and the status too when it is not Halt's. -/
theorem exec_status_fault : t.status = .failed ∨ (t.fault = s.fault ∧ (i ≠ .halt → t.status = s.status)) := by
  cases i with
  | halt => cases h; exact .inr ⟨rfl, fun hne => absurd rfl hne⟩
  | ret =>
    obtain ⟨-, hkeep⟩ := exec_ret_frame h
    exact hkeep.imp_right fun ⟨hfault, hstatus⟩ => ⟨hfault, fun _ => hstatus⟩
  | call nnn =>
    obtain ⟨-, -, hkeep⟩ := exec_call_frame h
    exact hkeep.imp_right fun ⟨hfault, hstatus⟩ => ⟨hfault, fun _ => hstatus⟩
  | add x y => cases h; exact .inr ⟨rfl, fun _ => rfl⟩

end ExecFrame

/-- Settles O21, item of state by item of state. -/
theorem instructionsChangeNothingElse : Obligations.InstructionsChangeNothingElse := by
  intro i s t h
  refine ⟨fun a => by rw [exec_mem h], fun r => exec_readReg_of_ne h, fun k => exec_readSlot_of_ne h, exec_sp_pc h,
    fun hi hf => ?status, fun hf => ?fault⟩
  case status =>
    obtain hfail | ⟨-, hstatus⟩ := exec_status_fault h
    · exact absurd hfail hf
    · exact hstatus hi
  case fault =>
    obtain hfail | ⟨hfault, -⟩ := exec_status_fault h
    · exact absurd hfail hf
    · exact hfault

/-! ### The sum of an Add (42_arithmetic.md section 2) -/

/-- Settles O17: the flag is the sum's quotient by 256, which is at most 1, and the result its remainder. -/
theorem addFlagAndResultMakeTheSum : Obligations.AddFlagAndResultMakeTheSum := by
  intro s x y hx
  obtain ⟨t, ht⟩ := exec_next (.add x y) s
  have hle := aluSum_le (s.readReg x) (s.readReg y)
  have hsum : aluSum (s.readReg x) (s.readReg y) = (s.readReg x).toNat + (s.readReg y).toNat := rfl
  refine ⟨t, ht, ?_⟩
  rw [exec_add_flag ht, exec_add_result ht hx, carryFlag_toNat, aluResult_toNat, ← hsum]
  split_ifs with h
  · exact ⟨by omega, iff_of_true rfl h⟩
  · exact ⟨by omega, iff_of_false (by decide) h⟩

/-! ### When a step is defined (40_step_cycle.md sections 1 and 5) -/

/-- Outside `Running` a step is a named fault (log entry 1). -/
theorem step_of_not_running {s : State} (h : s.status ≠ .running) : ∃ r, step s = .fault r := by
  unfold step
  cases hs : s.status with
  | running => exact absurd hs h
  | idle => exact ⟨_, rfl⟩
  | halted => exact ⟨_, rfl⟩
  | failed => exact ⟨_, rfl⟩

/-- Settles O10, by whether the Machine runs. -/
theorem stepAnswersANextStateExactlyWhileRunning : Obligations.StepAnswersANextStateExactlyWhileRunning := by
  refine fun s => ⟨⟨fun ⟨t, ht⟩ => (step_cases ht).1, step_next_of_running⟩, fun r hrefused => ?_⟩
  by_cases hr : s.status = .running
  · obtain ⟨t, ht⟩ := step_next_of_running hr
    rw [ht] at hrefused
    cases hrefused
  · obtain ⟨f, hf⟩ := step_of_not_running hr
    rw [hf] at hrefused
    cases hrefused

/-! ### Memory (20_memory.md sections 8 and 10) -/

theorem step_mem {s t : State} (h : step s = .next t) : t.mem = s.mem := by
  obtain ⟨-, ⟨-, rfl⟩ | ⟨-, ⟨i, -, he⟩ | ⟨-, rfl⟩⟩⟩ := step_cases h
  · rfl
  · exact (exec_mem he).trans s.advancePc_mem
  · rfl

/-- Settles O22: no step writes memory, so no run does. -/
theorem memoryIsConstantDuringARun : Obligations.MemoryIsConstantDuringARun := by
  intro n s a
  have hmem : (runFor n s).mem = s.mem :=
    runFor_induct (P := fun u => u.mem = s.mem) (fun u v hu huv => (step_mem huv).trans hu) rfl n
  rw [hmem]

/-! ### The run status (10_state.md section 7) -/

/-- A step leaves the Machine running, halts it on Halt, or fails. -/
theorem step_status_cases {s t : State} (h : step s = .next t) :
    t.status = .running ∨ (s.Fetches .halt ∧ t.status = .halted) ∨ t.status = .failed := by
  obtain ⟨hr, ⟨-, rfl⟩ | ⟨hpc, ⟨i, hd, he⟩ | ⟨-, rfl⟩⟩⟩ := step_cases h
  · exact .inr (.inr rfl)
  · obtain hfail | ⟨-, hstatus⟩ := exec_status_fault he
    · exact .inr (.inr hfail)
    · by_cases hi : i = .halt
      · subst hi
        cases he
        exact .inr (.inl ⟨State.fetches_iff.2 ⟨hr, hpc, hd⟩, rfl⟩)
      · exact .inl ((hstatus hi).trans hr)
  · exact .inr (.inr rfl)

theorem step_status_ne_idle {s t : State} (h : step s = .next t) : t.status ≠ .idle := by
  obtain hst | ⟨-, hst⟩ | hst := step_status_cases h <;> rw [hst] <;> nofun

/-- A step halts the Machine exactly when it fetched Halt (43_halt_and_unimplemented.md R130). -/
theorem step_status_halted_iff {s t : State} (h : step s = .next t) :
    t.status = .halted ↔ s.decoded? = some (.instr .halt) := by
  constructor
  · intro hh
    obtain hst | ⟨⟨-, hd⟩, -⟩ | hst := step_status_cases h
    · rw [hst] at hh; cases hh
    · exact hd
    · rw [hst] at hh; cases hh
  · intro hd
    rw [step_halt ⟨(step_cases h).1, hd⟩] at h
    cases h
    rfl

/-- A step fails exactly when a fatal condition is due (60_exceptions.md R141). -/
theorem step_status_failed_iff {s t : State} (h : step s = .next t) :
    t.status = .failed ↔ s.dueFault?.isSome = true := by
  obtain ⟨hraise, hnone⟩ := step_raises_exactly_what_is_due h
  cases hdue : s.dueFault? with
  | some r => exact ⟨fun _ => rfl, fun _ => (hraise r hdue).1⟩
  | none => exact ⟨fun hf => absurd hf (hnone hdue).1, nofun⟩

/-- The same state with the status `st`. -/
def State.withStatus (s : State) (st : RunStatus) : State := { s with status := st }

theorem State.push?_withStatus (s : State) (st : RunStatus) (v : Word) :
    (s.withStatus st).push? v = (s.push? v).map (·.withStatus st) := by
  by_cases h : s.sp.val < Config.stackCapacity <;> simp [State.push?, State.withStatus, h]

theorem State.pop?_withStatus (s : State) (st : RunStatus) :
    (s.withStatus st).pop? = s.pop?.map fun p => (p.1, p.2.withStatus st) := by
  by_cases h : 0 < s.sp.val <;> simp [State.pop?, State.withStatus, h]

/-- No handler reads the status: from any other status it gives the same state but for the status. -/
theorem exec_withStatus {i : Instr} {s t : State} (h : exec i s = .next t) (st : RunStatus) :
    ∃ st', exec i (s.withStatus st) = .next (t.withStatus st') := by
  cases i with
  | halt => cases h; exact ⟨.halted, rfl⟩
  | ret =>
    rcases exec_ret_cases s with ⟨h0, he⟩ | ⟨-, v, u, hu, he⟩ <;> rw [he] at h <;> cases h
    · exact ⟨.failed, exec_ret_of_empty (s := s.withStatus st) h0⟩
    · exact ⟨st, exec_ret_of_pop (t := u.withStatus st) (by rw [State.pop?_withStatus, hu]; rfl)⟩
  | call nnn =>
    rcases exec_call_cases nnn s with ⟨h16, he⟩ | ⟨-, u, hu, he⟩ <;> rw [he] at h <;> cases h
    · exact ⟨.failed, exec_call_of_full (s := s.withStatus st) h16 nnn⟩
    · exact ⟨st, exec_call_of_push (t := u.withStatus st) ((s.push?_withStatus st s.pc).trans (by rw [hu]; rfl)) nnn⟩
  | add x y => cases h; exact ⟨st, rfl⟩

/-! ### Control and the registers (40_step_cycle.md section 6) -/

/-- Settles O34: every handler keeps the agreement on control, so a step does. -/
theorem controlNeverDependsOnRegisters : Obligations.ControlNeverDependsOnRegisters := by
  intro s t s' h hs
  have ⟨hmem, hpc, hstatus, _⟩ := h
  exact step_lift hmem hpc hstatus h h.advancePc (fun u v c a o huv => huv.raise c a o)
    (fun i u _ hu => exec_sameControl h.advancePc hu) hs

/-! ### The run loop (40_step_cycle.md section 6) -/

/-- Where the host's iteration of `step` gives a state, the run loop gives the same. -/
theorem runFor_eq_of_run {n : Nat} {s t : State} (h : Host.Core.run core n s = .next t) : runFor n s = t := by
  induction n generalizing s with
  | zero => cases h; rfl
  | succ n ih =>
    by_cases hr : s.status = .running
    · obtain ⟨u, hu⟩ := step_next_of_running hr
      rw [run_succ_of_step core n hu] at h
      rw [runFor_succ_of_step hu]
      exact ih h
    · obtain ⟨f, hf⟩ := step_of_not_running hr
      have hstop : ∀ u, core.step s ≠ .next u := fun u hu => by
        rw [show core.step s = .fault f from hf] at hu
        cases hu
      exact absurd h (run_succ_ne_next core n hstop)

/-- Settles O36: the loop takes the host's steps, and what follows a stop is a run of a stopped Machine. -/
theorem runLoopGivesTheStatesOfTheIteratedStep : Obligations.RunLoopGivesTheStatesOfTheIteratedStep := by
  refine ⟨fun n s t => runFor_eq_of_run, fun n m s hstop hnm => ?_⟩
  obtain ⟨d, rfl⟩ := Nat.exists_eq_add_of_le hnm
  rw [runFor_add, runFor_of_not_running hstop]

end Sys2Proof.Machine
end

section
/-! SUPPORT. What a step does to the call stack and `pc`, said once, and the statements about whole runs that rest on it:
10_state.md section 4 (the bound on `pc`), 41_control_transfer.md section 3 (Call and Return match), 40_step_cycle.md
section 6 (every run ends). -/

namespace Sys2Proof.Machine

/-! ### Control and the call stack in one step -/

/-- What a step does to `pc` and the call stack: a Return that pops, a Call that pushes, or nothing to the stack. In the
last case `pc` is advanced, or the Machine fails with `pc` where it was. -/
theorem step_control_cases {s t : State} (h : step s = .next t) :
    (t.sp = s.sp ∧ t.stack = s.stack ∧
      ((t.status = .failed ∧ t.pc = s.pc) ∨ (s.pc.toNat ≤ 4094 ∧ t.pc = s.pc + 2))) ∨
    (s.Fetches .ret ∧ 0 < s.sp.val ∧ t.sp.val = s.sp.val - 1 ∧ t.stack = s.stack ∧
      ∀ k : Fin Config.stackCapacity, k.val = s.sp.val - 1 → t.pc = s.readSlot k) ∨
    (∃ nnn, s.Fetches (.call nnn) ∧ s.sp.val < 16 ∧ t.sp.val = s.sp.val + 1 ∧ t.pc = callTarget nnn ∧
      ∀ k, t.readSlot k = if k.val = s.sp.val then s.pc + 2 else s.readSlot k) := by
  obtain ⟨hr, ⟨hpc, rfl⟩ | ⟨hpc, w, rfl, ⟨-, rfl⟩ | ⟨-, rfl⟩ | ⟨-, -, rfl⟩ |
    ⟨hd, hsp, -, -, hstack, htsp, -, -, htpc⟩ | ⟨nnn, -, -, rfl⟩ |
    ⟨nnn, hd, hsp, -, -, htsp, -, -, htpc, hslot⟩ | ⟨x, y, -, he⟩⟩⟩ := step_cases_full h
  case inl => exact .inl ⟨rfl, rfl, .inl ⟨rfl, rfl⟩⟩
  · exact .inl ⟨rfl, rfl, .inr ⟨hpc, rfl⟩⟩
  · exact .inl ⟨rfl, rfl, .inr ⟨hpc, rfl⟩⟩
  · exact .inl ⟨rfl, rfl, .inr ⟨hpc, rfl⟩⟩
  · exact .inr (.inl ⟨State.fetches_iff.2 ⟨hr, hpc, hd⟩, hsp, htsp, hstack, htpc⟩)
  · exact .inl ⟨rfl, rfl, .inr ⟨hpc, rfl⟩⟩
  · exact .inr (.inr ⟨nnn, State.fetches_iff.2 ⟨hr, hpc, hd⟩, hsp, htsp, htpc, hslot⟩)
  · obtain ⟨htpc, hsp, hstack, -⟩ := exec_add_frame he
    exact .inl ⟨hsp, hstack, .inr ⟨hpc, htpc⟩⟩

/-- A slot that is live after a step was live before it and holds what it held, or the step's Call pushed it. -/
theorem step_live_slot {s t : State} (h : step s = .next t) {k : Fin Config.stackCapacity} (hk : k.val < t.sp.val) :
    (k.val < s.sp.val ∧ t.readSlot k = s.readSlot k) ∨
    ((∃ nnn, s.Fetches (.call nnn)) ∧ s.sp.val < 16 ∧ s.pc.toNat ≤ 4094 ∧ t.readSlot k = s.pc + 2) := by
  obtain ⟨hsp, hstack, -⟩ | ⟨-, -, hsp, hstack, -⟩ | ⟨nnn, hf, hlt, hsp, -, hslot⟩ := step_control_cases h
  · exact .inl ⟨hsp ▸ hk, State.readSlot_of_stack hstack k⟩
  · exact .inl ⟨by omega, State.readSlot_of_stack hstack k⟩
  · obtain ⟨-, hpc, -⟩ := State.fetches_iff.1 hf
    rw [hslot]
    split_ifs with hks
    · exact .inr ⟨⟨nnn, hf⟩, hlt, hpc, rfl⟩
    · exact .inl ⟨by omega, rfl⟩

/-- No step writes a live slot: a Call pushes above them. -/
theorem step_readSlot_of_lt {s t : State} (h : step s = .next t) {k : Fin Config.stackCapacity} (hk : k.val < s.sp.val) :
    t.readSlot k = s.readSlot k := by
  obtain ⟨-, hstack, -⟩ | ⟨-, -, -, hstack, -⟩ | ⟨nnn, -, -, -, -, hslot⟩ := step_control_cases h
  · exact State.readSlot_of_stack hstack k
  · exact State.readSlot_of_stack hstack k
  · rw [hslot, if_neg (by omega)]

/-- `sp` falls by a Return only, and then by one. -/
theorem step_sp_falls_by_ret {s t : State} (h : step s = .next t) :
    s.sp.val ≤ t.sp.val ∨ (s.Fetches .ret ∧ s.sp.val = t.sp.val + 1) := by
  obtain ⟨hsp, -⟩ | ⟨hf, hpos, hsp, -⟩ | ⟨nnn, -, -, hsp, -⟩ := step_control_cases h
  · exact .inl (hsp ▸ Nat.le_refl _)
  · exact .inr ⟨hf, by omega⟩
  · exact .inl (by omega)

/-- One more step of a run is a step, or the Machine has stopped and stays as it is. -/
theorem runFor_succ_cases (n : Nat) (s : State) :
    step (runFor n s) = .next (runFor (n + 1) s) ∨ runFor (n + 1) s = runFor n s := by
  rw [runFor_succ']
  by_cases h : (runFor n s).status = .running
  · obtain ⟨t, ht⟩ := step_next_of_running h
    rw [runFor_succ_of_step ht]
    exact .inl ht
  · exact .inr (runFor_of_not_running h 1)

/-! ### The bound on `pc` (10_state.md section 4) -/

/-- The bound is kept: a Call goes below 4096 and saves at most 4096, a Return goes to a live slot. -/
theorem step_addressesAtMost {b : Nat} {s t : State} (hb : 4096 ≤ b) (hs : s.AddressesAtMost b) (h : step s = .next t) :
    t.AddressesAtMost b := by
  obtain ⟨hpc, hlive⟩ := hs
  constructor
  · obtain ⟨-, -, ⟨-, htpc⟩ | ⟨hle, htpc⟩⟩ | ⟨-, hpos, -, -, htpc⟩ | ⟨nnn, -, -, -, htpc, -⟩ := step_control_cases h
    · rw [htpc]; exact hpc
    · rw [htpc, State.pc_add_two_toNat hle]; omega
    · have hsp := s.sp_le
      rw [htpc ⟨s.sp.val - 1, by simp only [Config.stackCapacity]; omega⟩ rfl]
      exact hlive _ (by simp only; omega)
    · have := nnn.isLt
      rw [htpc, callTarget_toNat]; omega
  · intro k hk
    obtain ⟨hks, hslot⟩ | ⟨-, -, hle, hslot⟩ := step_live_slot h hk
    · rw [hslot]; exact hlive k hks
    · rw [hslot, State.pc_add_two_toNat hle]; omega

/-- Settles O30: the bound is an invariant, and with an empty stack a run starts within it. -/
theorem pcStaysWithinTheStatedBound : Obligations.PcStaysWithinTheStatedBound := by
  refine ⟨fun b s t => step_addressesAtMost, fun s n hsp => ?_⟩
  have hstart : s.AddressesAtMost (max s.pc.toNat 4096) :=
    ⟨Nat.le_max_left .., fun k hk => absurd hk (by omega)⟩
  exact (runFor_induct (fun u v hu => step_addressesAtMost (Nat.le_max_right ..) hu) hstart n).1

/-! ### Call and Return match (41_control_transfer.md section 3) -/

/-- The slot `k` is live and holds `v`. -/
def State.SavedAt (s : State) (k : Fin Config.stackCapacity) (v : Word) : Prop := k.val < s.sp.val ∧ s.readSlot k = v

/-- A Call that completes saves its own address plus 2 in the slot at `sp`. -/
theorem step_call_savedAt {s t : State} {nnn : Imm12} (hf : s.Fetches (.call nnn)) (hsp : s.sp.val < 16)
    (h : step s = .next t) : t.SavedAt ⟨s.sp.val, hsp⟩ (s.pc + 2) := by
  obtain ⟨htsp, hslot⟩ := step_call_room hf h hsp
  exact ⟨by simp only; omega, hslot _ rfl⟩

/-- A saved address stays saved until the Return that pops it. -/
theorem step_savedAt {s t : State} {k : Fin Config.stackCapacity} {v : Word} (hs : s.SavedAt k v)
    (hret : ¬(s.Fetches .ret ∧ s.sp.val = k.val + 1)) (h : step s = .next t) : t.SavedAt k v := by
  obtain ⟨hk, hv⟩ := hs
  refine ⟨?_, (step_readSlot_of_lt h hk).trans hv⟩
  obtain hsp | ⟨hf, hsp⟩ := step_sp_falls_by_ret h
  · omega
  · have : s.sp.val ≠ k.val + 1 := fun h1 => hret ⟨hf, h1⟩
    omega

theorem runFor_savedAt {s : State} {k : Fin Config.stackCapacity} {v : Word} (hs : s.SavedAt k v) (n : Nat)
    (hret : ∀ j, j < n → ¬((runFor j s).Fetches .ret ∧ (runFor j s).sp.val = k.val + 1)) :
    (runFor n s).SavedAt k v := by
  induction n with
  | zero => exact hs
  | succ n ih =>
    have hn := ih fun j hj => hret j (by omega)
    obtain hstep | hstay := runFor_succ_cases n s
    · exact step_savedAt hn (hret n (by omega)) hstep
    · rw [hstay]; exact hn

/-- Settles O31: the Call's saved address is still in its slot when the matching Return pops that slot. -/
theorem matchingReturnComesBackAfterTheCall : Obligations.MatchingReturnComesBackAfterTheCall := by
  intro s s₁ t nnn n hcall hsp hstep hbefore hret hretsp ht
  obtain ⟨-, hle, -⟩ := State.fetches_iff.1 hcall
  obtain ⟨-, hsaved⟩ := runFor_savedAt (step_call_savedAt hcall hsp hstep) n hbefore
  obtain ⟨htsp, hpc⟩ := step_ret_pos hret ht (by omega)
  have hback : t.sp.val = s.sp.val := by omega
  refine ⟨?_, Fin.ext hback⟩
  rw [hpc ⟨s.sp.val, hsp⟩ hback.symm, hsaved, State.pc_add_two_toNat hle]

/-- In a run from an empty stack, every live slot was saved by a Call that completed earlier in the run. -/
theorem runFor_live_slot {s : State} (hsp : s.sp.val = 0) (n : Nat) {k : Fin Config.stackCapacity}
    (hk : k.val < (runFor n s).sp.val) :
    ∃ j, j < n ∧ (∃ nnn, (runFor j s).Fetches (.call nnn)) ∧ (runFor j s).sp.val < 16 ∧
      ((runFor n s).readSlot k).toNat = (runFor j s).pc.toNat + 2 := by
  induction n with
  | zero => exact absurd hk (by rw [runFor]; omega)
  | succ n ih =>
    obtain hstep | hstay := runFor_succ_cases n s
    · obtain ⟨hks, hslot⟩ | ⟨hcall, hlt, hle, hslot⟩ := step_live_slot hstep hk
      · obtain ⟨j, hj, hcall, hlt, hv⟩ := ih hks
        exact ⟨j, by omega, hcall, hlt, by rw [hslot, hv]⟩
      · exact ⟨n, by omega, hcall, hlt, by rw [hslot, State.pc_add_two_toNat hle]⟩
    · rw [hstay] at hk ⊢
      obtain ⟨j, hj, hsaved⟩ := ih hk
      exact ⟨j, by omega, hsaved⟩

/-- Settles O32: a Return that pops goes to a live slot, and every live slot was saved by an earlier Call. -/
theorem returnsGoOnlyBehindExecutedCalls : Obligations.ReturnsGoOnlyBehindExecutedCalls := by
  intro s t n hsp hret hpos ht
  have hle := (runFor n s).sp_le
  obtain ⟨htsp, hpc⟩ := step_ret_pos hret ht hpos
  have hk : t.sp.val < Config.stackCapacity := by simp only [Config.stackCapacity]; omega
  rw [hpc ⟨t.sp.val, hk⟩ rfl]
  exact runFor_live_slot hsp n (by simp only; omega)

/-! ### Every run ends (40_step_cycle.md section 6) -/

/-- How much of the address range is ahead at level `k` of the call stack: of a live return address, of `pc` at level `sp`,
nothing above. -/
def State.aheadAt (s : State) (k : Nat) : Nat :=
  if h : k < s.sp.val then 65536 - (s.readSlot ⟨k, h.trans_le s.sp_le⟩).toNat
  else if k = s.sp.val then 65536 - s.pc.toNat else 0

/-- The levels of the call stack in lexicographic order, the outermost first. -/
def State.ahead (s : State) : Lex (Fin 17 → Nat) := toLex fun k => s.aheadAt k.val

theorem State.aheadAt_of_lt {s : State} {k : Fin Config.stackCapacity} (h : k.val < s.sp.val) :
    s.aheadAt k.val = 65536 - (s.readSlot k).toNat := dif_pos h

theorem State.aheadAt_sp {s : State} {k : Nat} (h : k = s.sp.val) : s.aheadAt k = 65536 - s.pc.toNat := by
  rw [State.aheadAt, dif_neg (by omega), if_pos h]

theorem State.aheadAt_of_gt {s : State} {k : Nat} (h : s.sp.val < k) : s.aheadAt k = 0 := by
  rw [State.aheadAt, dif_neg (by omega), if_neg (by omega)]

/-- Less is ahead when it is the same below the level of `sp` and less at that level. -/
theorem State.ahead_lt {s t : State}
    (hbelow : ∀ k : Fin Config.stackCapacity, k.val < s.sp.val → t.aheadAt k.val = 65536 - (s.readSlot k).toNat)
    (hat : t.aheadAt s.sp.val < 65536 - s.pc.toNat) : t.ahead < s.ahead := by
  refine ⟨s.sp, fun j hj => ?_, ?_⟩
  · have hj16 : j.val < Config.stackCapacity := lt_of_lt_of_le hj s.sp_le
    exact (hbelow ⟨j.val, hj16⟩ hj).trans (State.aheadAt_of_lt (k := ⟨j.val, hj16⟩) hj).symm
  · exact lt_of_lt_of_eq hat (State.aheadAt_sp rfl).symm

/-- A step after which the Machine still runs leaves less ahead: a Call saves an address behind itself, a Return gives up
its level, anything else advances `pc`. -/
theorem step_ahead_lt {s t : State} (h : step s = .next t) (hr : t.status = .running) : t.ahead < s.ahead := by
  have hword := s.pc.isLt
  obtain ⟨hsp, hstack, ⟨hfail, -⟩ | ⟨hle, hpc⟩⟩ | ⟨-, hpos, hsp, hstack, hpc⟩ | ⟨nnn, hf, -, hsp, -, hslot⟩ :=
    step_control_cases h
  · rw [hr] at hfail
    cases hfail
  · refine State.ahead_lt (fun k hk => ?below) ?level
    case below => rw [State.aheadAt_of_lt (hsp ▸ hk), State.readSlot_of_stack hstack]
    case level =>
      rw [State.aheadAt_sp (congrArg Fin.val hsp).symm, hpc, State.pc_add_two_toNat hle]
      omega
  · refine State.ahead_lt (fun k hk => ?below) ?level
    case below =>
      rcases Nat.lt_or_ge k.val t.sp.val with hlt | hge
      · rw [State.aheadAt_of_lt hlt, State.readSlot_of_stack hstack]
      · rw [State.aheadAt_sp (by omega), hpc k (by omega)]
    case level =>
      rw [State.aheadAt_of_gt (by omega)]
      omega
  · obtain ⟨-, hle, -⟩ := State.fetches_iff.1 hf
    refine State.ahead_lt (fun k hk => ?below) ?level
    case below => rw [State.aheadAt_of_lt (by omega), hslot, if_neg (by omega)]
    case level =>
      have hlt : s.sp.val < t.sp.val := by omega
      have hk : s.sp.val < Config.stackCapacity := lt_of_lt_of_le hlt t.sp_le
      rw [State.aheadAt_of_lt (k := ⟨s.sp.val, hk⟩) hlt, hslot, if_pos rfl, State.pc_add_two_toNat hle]
      omega

/-- Settles O33, by well-founded induction on what is ahead. -/
theorem everyRunEnds : Obligations.EveryRunEnds := by
  intro s
  induction s using (InvImage.wf State.ahead wellFounded_lt).induction with
  | h s ih =>
    intro hr
    obtain ⟨t, ht⟩ := step_next_of_running hr
    obtain hrun | ⟨-, hhalted⟩ | hfailed := step_status_cases ht
    · obtain ⟨n, hn⟩ := ih t (step_ahead_lt ht hrun) hrun
      exact ⟨n + 1, by rw [runFor_succ_of_step ht]; exact hn⟩
    · exact ⟨1, by rw [runFor_succ_of_step ht]; exact .inl hhalted⟩
    · exact ⟨1, by rw [runFor_succ_of_step ht]; exact .inr hfailed⟩

end Sys2Proof.Machine
end

section
/-! SUPPORT. Proofs of the statements of 30_encoding.md: the round trip of decode and encode, the encoded words as sums, and
the lines of a listing. -/

namespace Sys2Proof

/-- Settles O3: the words by the round trip, the bytes because they make the word again. -/
theorem decodeAndEncodeAgree : Obligations.DecodeAndEncodeAgree :=
  ⟨fun _ _ => decodeWord_eq_instr_iff, fun i => decode_bytesOfWord (decodeWord_encode i)⟩

/-- Settles O4: the sums are the encodings as numbers, and a word's two bytes make it. -/
theorem encodedWordsAreTheStatedSums : Obligations.EncodedWordsAreTheStatedSums := by
  refine ⟨rfl, rfl, encode_call_toNat, fun x y => ?add, fun i => ⟨_, _, rfl, ?bytes⟩⟩
  case add => rw [encode_add_toNat]; omega
  case bytes => rw [← wordOfBytes_toNat, wordOfBytes_highByte_lowByte]

/-- Settles O5: each word is closed, and decode computes. -/
theorem wordsOfTheTableDecode : Obligations.WordsOfTheTableDecode :=
  ⟨rfl, rfl, rfl, rfl, rfl, rfl, rfl, rfl⟩

/-! ### The lines of a listing (30_encoding.md R81) -/

/-- A line that stands for an instruction places its bytes: the one line that is placed otherwise stands for none. -/
theorem AsmLine.bytes?_of_toInstr? {l : AsmLine} {i : Instr} (h : l.toInstr? = some i) :
    l.bytes? = some (encodeBytes i) := by
  cases l with
  | word v => cases h
  | halt => exact congrArg (Option.map encodeBytes) h
  | ret => exact congrArg (Option.map encodeBytes) h
  | call nnn => exact congrArg (Option.map encodeBytes) h
  | add x y => exact congrArg (Option.map encodeBytes) h

/-- A line places bytes exactly when its numbers are in range. -/
theorem AsmLine.bytes?_isSome_iff (l : AsmLine) : l.bytes?.isSome = true ↔ l.wellFormed = true := by
  cases l with
  | halt => exact iff_of_true rfl rfl
  | ret => exact iff_of_true rfl rfl
  | call nnn => by_cases h : nnn < 4096 <;> simp [AsmLine.bytes?, AsmLine.toInstr?, AsmLine.wellFormed, h]
  | add x y =>
    by_cases hx : x < Config.numRegs <;> by_cases hy : y < Config.numRegs <;>
      simp [AsmLine.bytes?, AsmLine.toInstr?, AsmLine.wellFormed, hx, hy]
  | word v => by_cases h : v < 65536 <;> simp [AsmLine.bytes?, AsmLine.wellFormed, h]

/-- Settles O6, line by line. -/
theorem listingLinesHaveBytesExactlyWhenWellFormed : Obligations.ListingLinesHaveBytesExactlyWhenWellFormed :=
  fun l => ⟨l.bytes?_isSome_iff, fun _ => AsmLine.bytes?_of_toInstr?⟩

end Sys2Proof
end

section
/-! SUPPORT. Proof that the step refines the pseudocode of 40_step_cycle.md section 5: one lemma per operation says what the
view shows after it, one per instruction that the pseudocode's action gives that view. -/

namespace Sys2Proof.Pseudocode

open Sys2Proof.Machine

/-! ### What the view shows after each operation -/

section View
variable (s : State)

/-- An array of 16 numbers as the pseudocode reads it; an index outside it reads 0. -/
def storage (f : Fin 16 → Nat) : Nat → Nat := fun i => if h : i < 16 then f ⟨i, h⟩ else 0

theorem storage_val (f : Fin 16 → Nat) (i : Fin 16) : storage f i.val = f i := dif_pos i.isLt

/-- Writing one entry of the array is the pseudocode's update. -/
theorem storage_update {f g : Fin 16 → Nat} {k v : Nat} (hk : k < 16) (h : ∀ i, g i = if i.val = k then v else f i) :
    storage g = update (storage f) k v := by
  funext i
  by_cases hi : i < 16
  · simp [storage, update, hi, h]
  · simp [storage, update, hi, show i ≠ k by omega]

theorem view_x : (view s).x = storage fun i => (s.readReg i).toNat := rfl

theorem view_stack : (view s).stack = storage fun k => (s.readSlot k).toNat := rfl

theorem view_raise (c : Condition) (a : Word) (o : Option Word) :
    view (s.raise c a o) = raise (view s) c a.toNat (o.map BitVec.toNat) := rfl

theorem view_halt : view s.halt = { view s with status := .halted } := rfl

theorem view_writeReg (i : RegIdx) (v : Byte) :
    view (s.writeReg i v) = { view s with x := update (view s).x i.val v.toNat } := by
  have hx : (view (s.writeReg i v)).x = update (view s).x i.val v.toNat := by
    rw [view_x, view_x]
    refine storage_update i.isLt fun j => ?_
    rw [State.readReg_writeReg, apply_ite BitVec.toNat]
    simp only [Fin.ext_iff]
  rw [← hx]
  rfl

/-- States that agree on everything but `pc` and the call stack have views that do. -/
theorem view_of_control {s t : State} (hregs : t.regs = s.regs) (hmem : t.mem = s.mem) (hstatus : t.status = s.status)
    (hfault : t.fault = s.fault) :
    view t = { view s with pc := t.pc.toNat, stack := (view t).stack, sp := t.sp.val } := by
  simp only [view, statusView, State.readReg, hregs, hmem, hstatus, hfault]

end View

/-! ### The four actions -/

theorem doReturn_of_empty {p : PState} (h : p.sp = 0) (a w : Nat) :
    doReturn p a w = raise p .stackUnderflow a (some w) := if_pos h

theorem doReturn_of_pos {p : PState} (h : p.sp ≠ 0) (a w : Nat) :
    doReturn p a w = { p with pc := p.stack (p.sp - 1), sp := p.sp - 1 } := if_neg h

theorem doCall_of_full {p : PState} (h : p.sp = 16) (a w nnn : Nat) :
    doCall p a w nnn = raise p .stackOverflow a (some w) := if_pos h

theorem doCall_of_room {p : PState} (h : p.sp ≠ 16) (a w nnn : Nat) :
    doCall p a w nnn = { p with pc := nnn, stack := update p.stack p.sp p.pc, sp := p.sp + 1 } := if_neg h

section Actions
variable {s t : State}

/-- Add's action: the sum of the two registers seen, then the flag over it. -/
theorem view_exec_add {x y : RegIdx} (h : exec (.add x y) s = .next t) : view t = doAdd (view s) x.val y.val := by
  have hsum : (view s).x x.val + (view s).x y.val = aluSum (s.readReg x) (s.readReg y) := by
    rw [view_x, storage_val, storage_val]; rfl
  rw [exec_add] at h
  cases h
  rw [view_writeReg, view_writeReg, aluResult_toNat, carryFlag_toNat, doAdd, hsum]
  rfl

/-- Call's action, in a step that fetched it at `pc`. -/
theorem view_exec_call {nnn : Imm12} (h : exec (.call nnn) s.advancePc = .next t) :
    view t = doCall (view s.advancePc) s.pc.toNat (encode (.call nnn)).toNat nnn.toNat := by
  by_cases h16 : s.advancePc.sp.val = 16
  · rw [exec_call_of_full h16, State.advancePc_raiseFrom] at h
    cases h
    exact (view_raise ..).trans (doCall_of_full (p := view s.advancePc) h16 ..).symm
  · have hlt : s.advancePc.sp.val < 16 := by have := s.advancePc.sp_le; omega
    obtain ⟨u, hu, hpc, hsp, hslot, hregs, hmem, hstatus, hfault⟩ := exec_call_of_lt hlt nnn
    rw [hu] at h
    cases h
    have hstack : (view t).stack = update (view s.advancePc).stack s.advancePc.sp.val s.advancePc.pc.toNat := by
      rw [view_stack, view_stack]
      exact storage_update hlt fun k => by rw [hslot, apply_ite BitVec.toNat]
    rw [view_of_control hregs hmem hstatus hfault, hpc, callTarget_toNat, hsp, hstack]
    exact (doCall_of_room (p := view s.advancePc) h16 ..).symm

/-- Return's action, in a step that fetched it at `pc`. -/
theorem view_exec_ret (h : exec .ret s.advancePc = .next t) :
    view t = doReturn (view s.advancePc) s.pc.toNat (encode .ret).toNat := by
  by_cases h0 : s.advancePc.sp.val = 0
  · rw [exec_ret_of_empty h0, State.advancePc_raiseFrom] at h
    cases h
    exact (view_raise ..).trans (doReturn_of_empty (p := view s.advancePc) h0 ..).symm
  · obtain ⟨u, hu, hsp, hpc, hstack, hregs, hmem, hstatus, hfault⟩ := exec_ret_of_pos (Nat.pos_of_ne_zero h0)
    rw [hu] at h
    cases h
    have hk : s.advancePc.sp.val - 1 < 16 := by have := s.advancePc.sp_le; omega
    have htarget : t.pc.toNat = (view s.advancePc).stack (s.advancePc.sp.val - 1) := by
      rw [view_stack, storage_val _ ⟨_, hk⟩, hpc ⟨_, hk⟩ rfl]
    have hstack : (view t).stack = (view s.advancePc).stack := by
      simp only [view_stack, State.readSlot, hstack]
    rw [view_of_control hregs hmem hstatus hfault, htarget, hsp, hstack]
    exact (doReturn_of_pos (p := view s.advancePc) h0 ..).symm

end Actions

/-! ### The step -/

/-- What the pseudocode does with the word `w` it fetched at `a`, from the state `p` with `pc` advanced. -/
def act (p : PState) (a w : Nat) : PState :=
  if w / 4096 = 0 ∧ w / 256 % 16 = 0 ∧ w / 16 % 16 = 0 ∧ w % 16 = 0 then { p with status := .halted }
  else if w / 4096 = 0 ∧ w / 256 % 16 = 0 ∧ w / 16 % 16 = 0xE ∧ w % 16 = 0xE then doReturn p a w
  else if w / 4096 = 2 then doCall p a w (w % 4096)
  else if w / 4096 = 8 ∧ w % 16 = 4 then doAdd p (w / 256 % 16) (w / 16 % 16)
  else raise p .unimplementedOpcode a (some w)

theorem step_view_of_ge {s : State} (h : 4095 ≤ s.pc.toNat) :
    step (view s) = raise (view s) .outOfBoundsFetch s.pc.toNat none := if_pos h

theorem step_view_of_le {s : State} (h : s.pc.toNat ≤ 4094) :
    step (view s) = act (view s.advancePc) s.pc.toNat (s.mem.readWord s.pc.toNat).toNat := by
  have hpc : view s.advancePc = { view s with pc := s.pc.toNat + 2 } := by
    rw [← State.pc_add_two_toNat h]; rfl
  rw [hpc, Memory.readWord_toNat]
  exact if_neg (by show ¬s.pc.toNat ≥ 4095; omega)

/-- The model's dispatch of a word is the pseudocode's choice among the five actions. -/
theorem view_dispatch {s t : State} {w : Word} (h : dispatch (decodeWord w) s.advancePc = .next t) :
    view t = act (view s.advancePc) s.pc.toNat w.toNat := by
  unfold act
  split_ifs with hhalt hret hcall hadd
  · rw [decodeWord_of_halt (fields_eq_iff.2 hhalt)] at h
    cases h
    exact view_halt _
  · have hd := decodeWord_of_ret (fields_eq_iff.2 hret)
    rw [hd] at h
    rw [← encode_of_decodeWord hd]
    exact view_exec_ret h
  · have hd := decodeWord_of_call (fieldC_eq_iff.2 hcall)
    rw [hd] at h
    have hview := view_exec_call h
    rwa [encode_of_decodeWord hd, fieldNnn_toNat] at hview
  · have hd := decodeWord_of_add (fieldC_fieldD_eq_iff.2 hadd)
    rw [hd] at h
    rw [← fieldX_toNat, ← fieldY_toNat]
    exact view_exec_add h
  · rw [decodeWord_of_other (mt fields_eq_iff.1 hhalt) (mt fields_eq_iff.1 hret) (mt fieldC_eq_iff.1 hcall)
      (mt fieldC_fieldD_eq_iff.1 hadd), dispatch_unimplemented] at h
    cases h
    exact view_raise ..

/-- Settles O11: outside the bounds both raise; inside, both dispatch the word at `pc`. -/
theorem stepRefinesThePseudocode : Obligations.StepRefinesThePseudocode := by
  intro s hr
  obtain ⟨t, ht⟩ := step_next_of_running hr
  refine ⟨t, ht, ?_⟩
  rcases Nat.lt_or_ge s.pc.toNat 4095 with hlt | hge
  · have hpc : s.pc.toNat ≤ 4094 := by omega
    rw [step_view_of_le hpc]
    exact view_dispatch ((step_inBounds hr hpc).symm.trans ht)
  · rw [step_outOfBounds hr hge] at ht
    cases ht
    rw [step_view_of_ge hge]
    exact view_raise ..

end Sys2Proof.Pseudocode
end

section
/-! SUPPORT. Proofs of the statements of 10_state.md and 70_reset_and_hazards.md about the host interface and the invariant
of the Machine. -/

namespace Sys2Proof.Machine

/-! ### What each host command does (70_reset_and_hazards.md R170 to R178) -/

section Idle
variable {s : State} (h : s.status = .idle)
include h

theorem loaderWrite_of_idle (t : State) : s.loaderWrite t = .next t := if_pos h

theorem hostExec_writeMem_of_idle (a : Imm12) (b : Byte) :
    hostExec (.writeMem a b) s = .next { s with mem := s.mem.write a.toNat b } := loaderWrite_of_idle h _

theorem hostExec_writeReg_eq_of_idle (i : RegIdx) (v : Byte) : hostExec (.writeReg i v) s = .next (s.writeReg i v) :=
  loaderWrite_of_idle h _

theorem hostExec_writePc_of_idle (p : Word) : hostExec (.writePc p) s = .next (s.setPc p) := loaderWrite_of_idle h _

theorem hostExec_run_of_idle : hostExec .run s = .next (s.withStatus .running) := if_pos h

end Idle

theorem hostExec_run_of_not_idle {s : State} (h : s.status ≠ .idle) : hostExec .run s = .refused .runOutsideIdle :=
  if_neg h

theorem hostExec_reset_of_not_running {s : State} (h : s.status ≠ .running) :
    hostExec .reset s = .next State.reset := if_neg h

theorem hostExec_reset_of_running {s : State} (h : s.status = .running) :
    hostExec .reset s = .refused .resetWhileRunning := if_pos h

theorem hostExec_loaderWrite_of_not_idle {s : State} {c : HostCommand} (hc : c.isLoaderWrite = true)
    (h : s.status ≠ .idle) : hostExec c s = .refused .loaderWriteOutsideIdle := by
  cases c with
  | writeMem a b => exact if_neg h
  | writeReg i v => exact if_neg h
  | writePc p => exact if_neg h
  | reset => cases hc
  | run => cases hc

/-- Outside `Idle` every command but reset is refused. -/
theorem hostExec_refused_of_not_idle {s : State} {c : HostCommand} (hc : c ≠ .reset) (h : s.status ≠ .idle) :
    ∃ r, hostExec c s = .refused r := by
  cases c with
  | reset => exact absurd rfl hc
  | run => exact ⟨_, hostExec_run_of_not_idle h⟩
  | writeMem a b => exact ⟨_, hostExec_loaderWrite_of_not_idle rfl h⟩
  | writeReg i v => exact ⟨_, hostExec_loaderWrite_of_not_idle rfl h⟩
  | writePc p => exact ⟨_, hostExec_loaderWrite_of_not_idle rfl h⟩

/-- What an accepted host command did. -/
theorem hostExec_cases {c : HostCommand} {s t : State} (h : hostExec c s = .next t) :
    (c = .reset ∧ t = State.reset) ∨
    (s.status = .idle ∧
      ((∃ a b, c = .writeMem a b ∧ t = { s with mem := s.mem.write a.toNat b }) ∨
       (∃ i v, c = .writeReg i v ∧ t = s.writeReg i v) ∨ (∃ p, c = .writePc p ∧ t = s.setPc p) ∨
       (c = .run ∧ t = s.withStatus .running))) := by
  by_cases hreset : c = .reset
  · subst hreset
    by_cases hr : s.status = .running
    · rw [hostExec_reset_of_running hr] at h
      cases h
    · rw [hostExec_reset_of_not_running hr] at h
      cases h
      exact .inl ⟨rfl, rfl⟩
  · by_cases hi : s.status = .idle
    · refine .inr ⟨hi, ?_⟩
      cases c with
      | reset => exact absurd rfl hreset
      | writeMem a b => rw [hostExec_writeMem_of_idle hi] at h; cases h; exact .inl ⟨a, b, rfl, rfl⟩
      | writeReg i v => rw [hostExec_writeReg_eq_of_idle hi] at h; cases h; exact .inr (.inl ⟨i, v, rfl, rfl⟩)
      | writePc p => rw [hostExec_writePc_of_idle hi] at h; cases h; exact .inr (.inr (.inl ⟨p, rfl, rfl⟩))
      | run => rw [hostExec_run_of_idle hi] at h; cases h; exact .inr (.inr (.inr ⟨rfl, rfl⟩))
    · obtain ⟨r, hr⟩ := hostExec_refused_of_not_idle hreset hi
      rw [hr] at h
      cases h

/-- Settles O38, by the test of the status that Run makes. -/
theorem runIsAcceptedInIdleOnly : Obligations.RunIsAcceptedInIdleOnly :=
  fun _ => ⟨hostExec_run_of_idle, hostExec_run_of_not_idle⟩

/-- Settles O39: reset is refused while Running, every other command outside Idle. -/
theorem hostHasNoMoveWhileRunning : Obligations.HostHasNoMoveWhileRunning := by
  refine fun s hr => ⟨fun c => ?_, .inspectionWhileRunning, if_pos hr⟩
  by_cases hc : c = .reset
  · subst hc
    exact ⟨_, hostExec_reset_of_running hr⟩
  · exact hostExec_refused_of_not_idle hc (by rw [hr]; nofun)

/-- Settles O25: an ended Machine is neither running nor idle. -/
theorem endedMachineStaysUntilReset : Obligations.EndedMachineStaysUntilReset := by
  intro s h
  have hr : s.status ≠ .running := by rcases h with h | h <;> rw [h] <;> nofun
  have hi : s.status ≠ .idle := by rcases h with h | h <;> rw [h] <;> nofun
  exact ⟨fun t ht => hr (step_cases ht).1, runFor_of_not_running hr, fun c hc => hostExec_refused_of_not_idle hc hi,
    hostExec_reset_of_not_running hr⟩

/-- Settles O37, write by write. -/
theorem loaderWritesTakeEffectInIdleOnly : Obligations.LoaderWritesTakeEffectInIdleOnly := by
  refine ⟨fun s a b hinv hi => ?mem, fun s i v hi => ?reg, fun s p hi => hostExec_writePc_of_idle hi p,
    fun c s hc hi => ⟨_, hostExec_loaderWrite_of_not_idle hc hi⟩⟩
  case mem => exact ⟨_, hostExec_writeMem_of_idle hi a b, rfl, Memory.read_write hinv.memCanonical.1 a.toNat b⟩
  case reg => exact ⟨_, hostExec_writeReg_eq_of_idle hi i v, rfl, fun j => State.readReg_writeReg ..⟩

/-! ### The transitions of the run status (10_state.md section 7) -/

/-- Settles O26: steps and commands by what they did, and no handler reads the status. -/
theorem statusChangesOnlyAsStated : Obligations.StatusChangesOnlyAsStated := by
  refine ⟨fun s t h => ⟨(step_cases h).1, step_status_ne_idle h, step_status_halted_iff h, step_status_failed_iff h⟩,
    fun c s t h => ?command, fun s hi => ⟨_, hostExec_run_of_idle hi, rfl⟩,
    fun s hr => ⟨_, hostExec_reset_of_not_running hr, rfl⟩, fun i s t st h => ?handler⟩
  case command =>
    obtain ⟨rfl, rfl⟩ | ⟨hi, ⟨a, b, rfl, rfl⟩ | ⟨i, v, rfl, rfl⟩ | ⟨p, rfl, rfl⟩ | ⟨rfl, rfl⟩⟩ := hostExec_cases h
    · exact ⟨nofun, fun _ => rfl, nofun⟩
    · exact ⟨nofun, nofun, fun _ => ⟨hi, hi⟩⟩
    · exact ⟨nofun, nofun, fun _ => ⟨hi, hi⟩⟩
    · exact ⟨nofun, nofun, fun _ => ⟨hi, hi⟩⟩
    · exact ⟨fun _ => ⟨hi, rfl⟩, nofun, nofun⟩
  case handler =>
    obtain ⟨st', hu⟩ := exec_withStatus h st
    exact ⟨_, hu, rfl, rfl, rfl, rfl, rfl, rfl⟩

/-! ### The invariant of the Machine -/

/-- Without a fault record the invariant is about memory, the status and the stack. -/
theorem State.inv_of_no_fault {s : State} (hmem : s.mem.wf) (hfault : s.fault = none) (hstatus : s.status ≠ .failed)
    (hidle : s.status = .idle → s.sp.val = 0 ∧ ∀ k, s.readSlot k = 0)
    (hlive : ∀ k : Fin Config.stackCapacity, k.val < s.sp.val →
      2 ≤ (s.readSlot k).toNat ∧ (s.readSlot k).toNat ≤ 4096) : s.Inv where
  memCanonical := hmem
  faultIffFailed := by simp [hfault, hstatus]
  idleStackEmpty := hidle
  liveSlots := hlive
  faultJustified := by simp [hfault]

theorem State.Inv.fault_eq_none {s : State} (h : s.Inv) (hs : s.status ≠ .failed) : s.fault = none := by
  rw [← Option.not_isSome_iff_eq_none, h.faultIffFailed]
  exact hs

/-- Settles O28: reset leaves no record and an empty stack. -/
theorem resetMeetsTheMachineInvariant : Obligations.ResetMeetsTheMachineInvariant :=
  State.inv_of_no_fault Memory.reset_wf rfl nofun (fun _ => ⟨rfl, State.readSlot_reset⟩)
    fun k hk => absurd hk k.val.not_lt_zero

/-- Settles O29: in Idle there is no record and the stack is empty, which a loader write and Run leave so. -/
theorem hostCommandsKeepTheMachineInvariant : Obligations.HostCommandsKeepTheMachineInvariant := by
  intro c s t hinv h
  obtain ⟨-, rfl⟩ | ⟨hi, hcase⟩ := hostExec_cases h
  · exact resetMeetsTheMachineInvariant
  · have hnf : s.status ≠ .failed := by rw [hi]; nofun
    have hfault := hinv.fault_eq_none hnf
    obtain ⟨a, b, -, rfl⟩ | ⟨i, v, -, rfl⟩ | ⟨p, -, rfl⟩ | ⟨-, rfl⟩ := hcase
    · exact State.inv_of_no_fault (Memory.write_wf hinv.memCanonical a.isLt b) hfault hnf hinv.idleStackEmpty
        hinv.liveSlots
    · exact State.inv_of_no_fault hinv.memCanonical hfault hnf hinv.idleStackEmpty hinv.liveSlots
    · exact State.inv_of_no_fault hinv.memCanonical hfault hnf hinv.idleStackEmpty hinv.liveSlots
    · exact State.inv_of_no_fault hinv.memCanonical hfault nofun nofun hinv.liveSlots

/-- The record of a step that fails tells truly why. -/
theorem step_faultJustified {s t : State} (hs : s.fault = none) (h : step s = .next t) {r : FaultRecord}
    (hr : t.fault = some r) : t.FaultJustified r := by
  obtain ⟨-, ⟨hpc, rfl⟩ | ⟨hpc, w, rfl, ⟨hd, rfl⟩ | ⟨-, rfl⟩ | ⟨hd, hsp, rfl⟩ |
    ⟨-, -, -, -, -, -, -, hfault, -⟩ | ⟨nnn, hd, hsp, rfl⟩ | ⟨nnn, -, -, -, -, -, -, hfault, -⟩ |
    ⟨x, y, -, he⟩⟩⟩ := step_cases_full h
  · cases hr; exact ⟨hpc, rfl, rfl⟩
  · cases hr; exact ⟨hpc, rfl, rfl, hd⟩
  · rw [State.halt_fault, State.advancePc_fault, hs] at hr; cases hr
  · cases hr; exact ⟨hpc, rfl, congrArg some (encode_of_decodeWord hd), hsp, hd⟩
  · rw [hfault, hs] at hr; cases hr
  · cases hr; exact ⟨hpc, rfl, congrArg some (encode_of_decodeWord hd), hsp, nnn, hd⟩
  · rw [hfault, hs] at hr; cases hr
  · obtain ⟨-, -, -, -, -, hfault⟩ := exec_add_frame he
    rw [hfault, State.advancePc_fault, hs] at hr; cases hr

/-- A step of a Machine without a fault record leaves one exactly when it fails. -/
theorem step_fault_isSome_iff {s t : State} (hs : s.fault = none) (h : step s = .next t) :
    t.fault.isSome = true ↔ t.status = .failed := by
  obtain ⟨r, u, -, -, rfl⟩ | ⟨-, hnf, hfault⟩ := step_cases_due h
  · exact iff_of_true rfl rfl
  · exact iff_of_false (by rw [hfault, hs]; nofun) hnf

/-- Settles O27, clause by clause. -/
theorem everyStepKeepsTheMachineInvariant : Obligations.EveryStepKeepsTheMachineInvariant := by
  intro s t hinv h
  have hs : s.fault = none := hinv.fault_eq_none (by rw [(step_cases h).1]; nofun)
  refine ⟨by rw [step_mem h]; exact hinv.memCanonical, step_fault_isSome_iff hs h,
    fun hi => absurd hi (step_status_ne_idle h), fun k hk => ?live, fun r => step_faultJustified hs h⟩
  obtain ⟨hks, hslot⟩ | ⟨-, -, hpc, hslot⟩ := step_live_slot h hk
  · rw [hslot]; exact hinv.liveSlots k hks
  · rw [hslot, State.pc_add_two_toNat hpc]; omega

/-! ### The launch state (70_reset_and_hazards.md section 2) -/

/-- `t` is `s` after the loader's writes `cs`: still in Idle, each item as last written, the stack untouched. -/
structure State.LoadedTo (s : State) (cs : List HostCommand) (t : State) : Prop where
  status : t.status = .idle
  canonical : t.mem.wf
  sp : t.sp = s.sp
  stack : t.stack = s.stack
  fault : t.fault = s.fault
  regs : ∀ i, t.readReg i = loadedReg cs i (s.readReg i)
  mem : ∀ a, t.mem.read a = loadedByte cs a (s.mem.read a)
  pc : t.pc = loadedPc cs s.pc

/-- One loader write in Idle is accepted and leaves what it wrote. -/
theorem hostExec_loadedTo {s : State} {c : HostCommand} (hc : c.isLoaderWrite = true) (hi : s.status = .idle)
    (hm : s.mem.wf) : ∃ t, hostExec c s = .next t ∧ s.LoadedTo [c] t := by
  cases c with
  | writeMem a b =>
    refine ⟨_, hostExec_writeMem_of_idle hi a b, hi, Memory.write_wf hm a.isLt b, rfl, rfl, rfl, fun _ => rfl,
      fun a' => ?_, rfl⟩
    exact (Memory.read_write hm.1 a.toNat b a').trans (if_congr eq_comm rfl rfl)
  | writeReg i v =>
    refine ⟨_, hostExec_writeReg_eq_of_idle hi i v, hi, hm, rfl, rfl, rfl, fun j => ?_, fun _ => rfl, rfl⟩
    exact (State.readReg_writeReg ..).trans (if_congr eq_comm rfl rfl)
  | writePc p => exact ⟨_, hostExec_writePc_of_idle hi p, hi, hm, rfl, rfl, rfl, fun _ => rfl, fun _ => rfl, rfl⟩
  | reset => cases hc
  | run => cases hc

/-- Writes after a write: what is left is what the whole list leaves. -/
theorem State.LoadedTo.cons {s t u : State} {c : HostCommand} {cs : List HostCommand} (h : s.LoadedTo [c] t)
    (h' : t.LoadedTo cs u) : s.LoadedTo (c :: cs) u where
  status := h'.status
  canonical := h'.canonical
  sp := h'.sp.trans h.sp
  stack := h'.stack.trans h.stack
  fault := h'.fault.trans h.fault
  regs i := (h'.regs i).trans (by rw [h.regs]; rfl)
  mem a := (h'.mem a).trans (by rw [h.mem]; rfl)
  pc := h'.pc.trans (by rw [h.pc]; rfl)

/-- Loader writes and then Run, from Idle, are all accepted. -/
theorem hostExecAll_loader_run {cs : List HostCommand} (hcs : ∀ c ∈ cs, c.isLoaderWrite = true) {s : State}
    (hi : s.status = .idle) (hm : s.mem.wf) :
    ∃ t, s.LoadedTo cs t ∧ hostExecAll (cs ++ [.run]) s = .next (t.withStatus .running) := by
  induction cs generalizing s with
  | nil =>
    refine ⟨s, ⟨hi, hm, rfl, rfl, rfl, fun _ => rfl, fun _ => rfl, rfl⟩, ?_⟩
    rw [List.nil_append, hostExecAll, hostExec_run_of_idle hi]
    rfl
  | cons c cs ih =>
    obtain ⟨hc, hcs⟩ := List.forall_mem_cons.1 hcs
    obtain ⟨u, hu, hsu⟩ := hostExec_loadedTo hc hi hm
    obtain ⟨t, hut, ht⟩ := ih hcs hsu.status hsu.canonical
    refine ⟨t, hsu.cons hut, ?_⟩
    rw [List.cons_append, hostExecAll, hu]
    exact ht

/-- Settles O41: the loader's writes from reset, and Run, which sets the status only. -/
theorem launchStateIsWhatTheLoaderLeft : Obligations.LaunchStateIsWhatTheLoaderLeft := by
  intro cs hcs
  obtain ⟨t, hload, ht⟩ := hostExecAll_loader_run hcs (s := State.reset) rfl Memory.reset_wf
  refine ⟨_, ht, rfl, congrArg Fin.val hload.sp, fun k => ?slot, hload.fault, fun i => ?reg, hload.mem, hload.pc⟩
  case slot => exact (State.readSlot_of_stack hload.stack k).trans (State.readSlot_reset k)
  case reg => exact (hload.regs i).trans (by rw [State.readReg_reset])

/-! ### The model's own placing of an instruction (log entry 2) -/

theorem decodeWord_of_decodeTableWord {nbits w : Nat} {i : Instr} (h : decodeTableWord nbits w = some i) :
    decodeWord (tableWord nbits w) = .instr i := by
  have hrest := List.append_nil (bytesOfWord (tableWord nbits w))
  rw [decodeTableWord, ← hrest] at h
  cases hd : decodeWord (tableWord nbits w) with
  | instr j =>
    rw [decode_bytesOfWord hd] at h
    cases h
    rfl
  | unimplemented v =>
    rw [decode_bytesOfWord_unimplemented hd] at h
    cases h

/-- The word written is the word read. -/
theorem Memory.readWord_writeWord {m : Memory} (hm : m.wf) {a : Nat} (ha : a + 1 < Config.memSize) (w : Word) :
    (m.writeWord a w).readWord a = w := by
  rw [Memory.readWord, Memory.read_writeWord hm ha, Memory.read_writeWord hm ha, if_neg (by omega), if_pos rfl,
    if_pos rfl, wordOfBytes_highByte_lowByte]

/-- Both bytes of a word at the place are in memory. -/
theorem State.fetchPlace_succ_lt (s : State) : s.fetchPlace.toNat + 1 < Config.memSize := by
  unfold State.fetchPlace Config.memSize
  split_ifs with h
  · decide
  · omega

section Place
variable {s : State} (hinv : s.Inv)
include hinv

theorem State.placeWord_fetches {w : Word} {i : Instr} (hd : decodeWord w = .instr i) : (s.placeWord w).Fetches i := by
  have hword := Memory.readWord_writeWord hinv.memCanonical s.fetchPlace_succ_lt w
  exact State.fetches_iff.2 ⟨rfl, Nat.le_of_lt_succ (Nat.lt_of_succ_lt_succ s.fetchPlace_succ_lt),
    (congrArg decodeWord hword).trans hd⟩

theorem State.placeWord_inv (w : Word) : (s.placeWord w).Inv :=
  State.inv_of_no_fault (Memory.writeWord_wf hinv.memCanonical s.fetchPlace_succ_lt w) rfl nofun nofun hinv.liveSlots

theorem State.placeWord_read_of_ne (w : Word) {a : Nat} (h : a ≠ (s.placeWord w).pc.toNat)
    (h' : a ≠ (s.placeWord w).pc.toNat + 1) : (s.placeWord w).mem.read a = s.mem.read a :=
  (Memory.read_writeWord hinv.memCanonical s.fetchPlace_succ_lt w a).trans ((if_neg h').trans (if_neg h))

end Place

/-- Settles O42: the placed word is read back, so the next step fetches its instruction. -/
theorem placedWordIsTheNextInstruction : Obligations.PlacedWordIsTheNextInstruction := by
  intro s w i hinv hd
  have hf := State.placeWord_fetches hinv (decodeWord_of_decodeTableWord hd)
  exact ⟨hf, State.placeWord_inv hinv _, step_of_fetches hf, fun a => State.placeWord_read_of_ne hinv _⟩

end Sys2Proof.Machine
end
